-- ==== Sys2Proof/Word.lean ====
section
/-! DEFINITION. The widths of PE: registers and DATA are 32 bits (`XLEN`), register numbers 12 (`ALEN`), buffer
elements 8, transaction words 45 (00_scope.md section 4, 30_encoding.md R80). -/

namespace Sys2Proof

/-- One byte register's value (10_state.md R23). -/
abbrev Byte := BitVec 8

/-- A register's value as a transaction moves it: `XLEN` = 32 bits (20_memory.md R64). -/
abbrev Word := BitVec 32

/-- A register number: `ALEN` = 12 bits (10_state.md R21). -/
abbrev RegNum := BitVec 12

/-- A transaction word, WR ‖ ADDR ‖ DATA: 45 bits (30_encoding.md R80). -/
abbrev TxnWord := BitVec 45

end Sys2Proof
end

