-- ==== Sys2Proof/Syntax.lean ====
section
/-! DEFINITION. The instructions of PE: one constructor for each row of spec/opcode_table.json (30_encoding.md R83). -/

namespace Sys2Proof

/-- A host transaction, classified (30_encoding.md R81, R82). -/
inductive Instr where
  /-- `NOP`: command word 0x00000000 (43_host_access.md R172). -/
  | nop
  /-- `TCALC`: command word 0x00000001, unit T (40_timing.md R100). -/
  | tcalc
  /-- `FENC`: command word 0x00000002, unit E (41_frame_encode.md R130). -/
  | fenc
  /-- `FDEC`: command word 0x00000003, unit D (42_frame_decode.md R150). -/
  | fdec
  /-- `CLR`: command word 0x00000004 (43_host_access.md R173). -/
  | clr
  /-- `ILLEGAL`: every other command word `data` (43_host_access.md R176). -/
  | illegal (data : Word)
  /-- `WR addr, data`: a write of a register other than CMD (43_host_access.md R171). -/
  | wr (addr : RegNum) (data : Word)
  /-- `RD addr`: a read; `data` is the DATA field, which a read ignores (43_host_access.md R170, log 12). -/
  | rd (addr : RegNum) (data : Word)
  deriving DecidableEq, Repr

end Sys2Proof
end

