-- ==== Sys2Proof/WellFormed.lean ====
section
/-! DEFINITION. Which terms of `Instr` are instructions of the table: the two side conditions of 30_encoding.md R81
and R85. -/

namespace Sys2Proof

/-- A command word that runs a unit or a housekeeping command: OPC 0x00 to 0x04 with ZERO = 0 (43_host_access.md R174). -/
def legalCommandWord (v : Word) : Bool := decide (v.toNat ≤ 4)

/-- `illegal` carries a command word R174 rejects, and `wr` a register number other than 0x000 (R81 line 2, R171);
every operand of the other rows is allowed (log 13). -/
def Instr.wellFormed : Instr → Bool
  | .nop => true
  | .tcalc => true
  | .fenc => true
  | .fdec => true
  | .clr => true
  | .illegal data => !legalCommandWord data
  | .wr addr _ => decide (addr ≠ 0#12)
  | .rd _ _ => true

end Sys2Proof
end

