-- ==== Sys2Proof/Decode.lean ====
section
/-! DEFINITION. The encoding of a transaction (30_encoding.md R80 to R85): the decoder, total on every number and
rejecting by name what is no transaction word, then the encoder, then the table of R83 as data. -/

namespace Sys2Proof

/-- The WR bit, bit 44 (30_encoding.md R80). -/
def wrField (w : TxnWord) : BitVec 1 := w.extractLsb' 44 1

/-- ADDR, bits 43:32 (30_encoding.md R80). -/
def addrField (w : TxnWord) : RegNum := w.extractLsb' 32 12

/-- DATA, bits 31:0 (30_encoding.md R80). -/
def dataField (w : TxnWord) : Word := w.extractLsb' 0 32

/-- OPC, bits 7:0 of a command word (30_encoding.md R82). -/
def opcField (v : Word) : Byte := v.extractLsb' 0 8

/-- ZERO, bits 31:8 of a command word (30_encoding.md R82). -/
def zeroField (v : Word) : BitVec 24 := v.extractLsb' 8 24

/-- The command a command word names; any ZERO ≠ 0 or OPC above 0x04 is illegal (43_host_access.md R174, R176). -/
def decodeCommand (v : Word) : Instr :=
  if zeroField v ≠ 0#24 then .illegal v
  else if opcField v = 0x00#8 then .nop
  else if opcField v = 0x01#8 then .tcalc
  else if opcField v = 0x02#8 then .fenc
  else if opcField v = 0x03#8 then .fdec
  else if opcField v = 0x04#8 then .clr
  else .illegal v

/-- Every transaction word is an instruction, classified in the order of 30_encoding.md R81. -/
def decodeWord (w : TxnWord) : Instr :=
  if wrField w = 1#1 then
    if addrField w = 0#12 then decodeCommand (dataField w)
    else .wr (addrField w) (dataField w)
  else .rd (addrField w) (dataField w)

/-- Why a number is not an instruction. -/
inductive DecodeError where
  /-- The number has a bit above bit 44, so it is no transaction word (30_encoding.md R80). Safe: no transaction of
  that width exists. -/
  | widerThanATransaction
  deriving DecidableEq, Repr

/-- The decoder on any number (log 9). -/
def decode (w : Nat) : Except DecodeError Instr :=
  if w < 2 ^ 45 then .ok (decodeWord (BitVec.ofNat 45 w)) else .error .widerThanATransaction

/-- The instruction the decoder reads from the `nbits` low bits of `w`, every bit above them zero. -/
def decodeTableWord (nbits w : Nat) : Option Instr :=
  match decode (w % 2 ^ nbits) with
  | .ok i => some i
  | .error _ => none

/-- WR ‖ ADDR ‖ DATA (30_encoding.md R80). -/
def txnWord (wr : BitVec 1) (addr : RegNum) (data : Word) : TxnWord := wr ++ addr ++ data

/-- The transaction word of a command word: a write to CMD (30_encoding.md R81 line 1). -/
def commandWord (v : Word) : TxnWord := txnWord 1#1 0x000#12 v

/-- The transaction word of an instruction (30_encoding.md R82, R97). -/
def encode : Instr → TxnWord
  | .nop => commandWord 0x00000000#32
  | .tcalc => commandWord 0x00000001#32
  | .fenc => commandWord 0x00000002#32
  | .fdec => commandWord 0x00000003#32
  | .clr => commandWord 0x00000004#32
  | .illegal data => commandWord data
  | .wr addr data => txnWord 1#1 addr data
  | .rd addr data => txnWord 0#1 addr data

/-- One row of the instruction list (30_encoding.md R83). -/
structure OpcodeRow where
  mnemonic : String
  bits : TxnWord
  mask : TxnWord
  deriving DecidableEq, Repr

/-- A word matches a row when `(word AND mask) = match`. -/
def OpcodeRow.matchesWord (r : OpcodeRow) (w : TxnWord) : Bool := decide (w &&& r.mask = r.bits)

/-- The instruction list of 30_encoding.md R83, in its priority order. -/
def opcodeTable : List OpcodeRow :=
  [⟨"NOP", 0x100000000000#45, 0x1FFFFFFFFFFF#45⟩,
   ⟨"TCALC", 0x100000000001#45, 0x1FFFFFFFFFFF#45⟩,
   ⟨"FENC", 0x100000000002#45, 0x1FFFFFFFFFFF#45⟩,
   ⟨"FDEC", 0x100000000003#45, 0x1FFFFFFFFFFF#45⟩,
   ⟨"CLR", 0x100000000004#45, 0x1FFFFFFFFFFF#45⟩,
   ⟨"ILLEGAL", 0x100000000000#45, 0x1FFF00000000#45⟩,
   ⟨"WR", 0x100000000000#45, 0x100000000000#45⟩,
   ⟨"RD", 0x000000000000#45, 0x100000000000#45⟩]

/-- The row an instruction belongs to. -/
def Instr.mnemonic : Instr → String
  | .nop => "NOP"
  | .tcalc => "TCALC"
  | .fenc => "FENC"
  | .fdec => "FDEC"
  | .clr => "CLR"
  | .illegal _ => "ILLEGAL"
  | .wr _ _ => "WR"
  | .rd _ _ => "RD"

end Sys2Proof
end

