-- ==== Sys2Proof/Config.lean ====
section
/-! DEFINITION. The parameters of PE: the constants of 00_scope.md section 4 and the reset value every register has
(70_reset_and_hazards.md R260). The two OPEN parameters of that section, `PIN_IF` and `LATENCY(cmd)`, have no constant
here because no rule depends on them (log 1, log 14). No value is left free: the spec fixes every one. -/

namespace Sys2Proof.Config

/-- `SP_SCALE`: the sample point is counted in 1/1000 of a bit time (92_eei_decisions.md D8). -/
abbrev spScale : Nat := 1000

/-- `SP_CLASSIC`: 87.5 %, a target a host may load (00_scope.md section 4). -/
abbrev spClassic : Nat := 875

/-- `SP_FD_DATA`: 75 %, a target a host may load (00_scope.md section 4). -/
abbrev spFdData : Nat := 750

/-- `SYNC_IN_SP`, normative value 0: the error metric does not count the "+1" quantum (40_timing.md R117, log 11). -/
abbrev syncInSp : Nat := 0

/-- `BRP_FIRST`: prescaler candidates run "from 1 upward" (40_timing.md R103). -/
abbrev brpFirst : Nat := 1

/-- `FD_LENGTHS`: the sixteen canonical FD lengths, ascending (00_scope.md section 4). -/
def fdLengths : List Nat := [0, 1, 2, 3, 4, 5, 6, 7, 8, 12, 16, 20, 24, 32, 48, 64]

/-- `CLASSIC_MAX`: the largest classic data length. -/
abbrev classicMax : Nat := 8

/-- `FD_MAX`: the largest FD data length. -/
abbrev fdMax : Nat := 64

/-- The largest data length code: the index of 64 in `FD_LENGTHS` (30_encoding.md R89). -/
abbrev dlcMax : Nat := 15

/-- `RX_SENTINEL`: the echo id of received bus traffic (30_encoding.md R87). -/
abbrev rxSentinel : Word := 0xFFFFFFFF#32

/-- `HDR_BYTES`: bytes of a wire frame before its data area (30_encoding.md R86). -/
abbrev hdrBytes : Nat := 12

/-- `WBUF_BYTES`: the size of each wire buffer (00_scope.md section 4). -/
abbrev wbufBytes : Nat := 80

/-- The value of a byte register that nothing has written since reset (70_reset_and_hazards.md R260). -/
abbrev resetByte : Byte := 0#8

end Sys2Proof.Config
end

