-- ==== Sys2Proof/Machine/State.lean ====
section
/-! DEFINITION. The state of PE: every register of the map 10_state.md R23 with exactly its implemented bits, the
byte registers of the four buffers, and the host port. Plain data throughout. -/

namespace Sys2Proof.Machine

/-- T_STATUS and E_STATUS: OK bit 0, ERR bit 1, CODE bits 7:4; bits 3:2 and 31:8 are not implemented (10_state.md
R29, log 7). -/
structure UnitStatus where
  ok : Bool
  err : Bool
  code : BitVec 4
  deriving DecidableEq, Repr

/-- D_STATUS: OK bit 0, ERR bit 1, RX bit 2, TS_VALID bit 3, CODE bits 7:4 (10_state.md R29). -/
structure DecodeStatus where
  ok : Bool
  err : Bool
  rx : Bool
  tsValid : Bool
  code : BitVec 4
  deriving DecidableEq, Repr

/-- FAULT: the sticky flags ILLCMD bit 0 and BADACC bit 1, CODE bits 7:4 (10_state.md R29). -/
structure FaultStatus where
  illcmd : Bool
  badacc : Bool
  code : BitVec 4
  deriving DecidableEq, Repr

/-- TX_FLAGS and RX_FLAGS: FD bit 1, BRS bit 2, ESI bit 3 (10_state.md R34). -/
structure FrameFlags where
  fd : Bool
  brs : Bool
  esi : Bool
  deriving DecidableEq, Repr

/-- A Frame, seven fields (10_state.md R34). `data` is the 64 data byte registers, of which the first `len` are the
frame's data. -/
structure Frame where
  echoId : Word
  canId : Word
  channel : Byte
  flags : FrameFlags
  len : Byte
  data : List Byte
  ts : Word
  deriving DecidableEq, Repr

/-- The scalar registers of 10_state.md R23, each under its own name. CMD holds nothing (R27). -/
structure Regs where
  cfgHwTs : Bool
  tStatus : UnitStatus
  eStatus : UnitStatus
  dStatus : DecodeStatus
  fault : FaultStatus
  tBitrate : Word
  tClockHz : Word
  tSamplePoint : Word
  lBrpMax : Word
  lSegMin : Word
  lSegMax : Word
  lSjwMax : Word
  lSjwMaxLegal : Bool
  btPropSeg : Word
  btPhaseSeg1 : Word
  btPhaseSeg2 : Word
  btSjw : Word
  btBrp : Word
  btTq : Word
  txEchoId : Word
  txCanId : Word
  txChannel : Byte
  txFlags : FrameFlags
  txLen : Byte
  txTs : Word
  txwLen : Byte
  rxEchoId : Word
  rxCanId : Word
  rxChannel : Byte
  rxFlags : FrameFlags
  rxLen : Byte
  rxTs : Word
  rxwLen : Byte
  deriving DecidableEq, Repr

/-- The byte registers of the buffers TX_DATA, TXW, RXW and RX_DATA, as cells (register number, byte) with strictly
rising numbers and no cell equal to the reset value, which an unlisted number reads as (10_state.md R23, log 8). -/
abbrev Memory := List Host.Cell

/-- What reaches PE through `PIN_IF` (log 1, log 4). -/
inductive PortEvent where
  /-- One transaction word (30_encoding.md R80). -/
  | transaction (w : TxnWord)
  /-- The reset input (70_reset_and_hazards.md R261). -/
  | reset
  deriving DecidableEq, Repr

/-- The whole machine. `pending` and `returned` are the model's own: what the host has sent and PE has not performed
yet, and the values the reads so far returned, oldest first (log 1, log 3). -/
structure State where
  regs : Regs
  mem : Memory
  pending : List PortEvent
  returned : List Word
  deriving DecidableEq, Repr

/-- Why a step stops with a fault. There is no such reason: every error of PE is written to a status register and PE
goes on (60_exceptions.md R233, R241; 70_reset_and_hazards.md R271 "no state is stuck"). Safe: nothing raises it
(log 6). -/
inductive Fault where
  deriving DecidableEq, Repr

/-- Why a step refuses an instruction. -/
inductive Refusal where
  /-- The instruction has no meaning yet. No arm of `exec` raises it: every row of the table is modelled. Safe. -/
  | notModelled (mnemonic : String)
  deriving DecidableEq, Repr

/-- The status of unit T or E before it first runs (10_state.md R29). -/
def UnitStatus.never : UnitStatus := ⟨false, false, 0#4⟩

/-- The status of unit D before it first runs (10_state.md R29). -/
def DecodeStatus.never : DecodeStatus := ⟨false, false, false, false, 0#4⟩

/-- FAULT with no fault since reset (10_state.md R29). -/
def FaultStatus.clear : FaultStatus := ⟨false, false, 0#4⟩

/-- Flags all 0: a classic frame (10_state.md R34). -/
def FrameFlags.classic : FrameFlags := ⟨false, false, false⟩

/-- Every scalar register at 0 (70_reset_and_hazards.md R260). -/
def Regs.reset : Regs where
  cfgHwTs := false
  tStatus := .never
  eStatus := .never
  dStatus := .never
  fault := .clear
  tBitrate := 0#32
  tClockHz := 0#32
  tSamplePoint := 0#32
  lBrpMax := 0#32
  lSegMin := 0#32
  lSegMax := 0#32
  lSjwMax := 0#32
  lSjwMaxLegal := false
  btPropSeg := 0#32
  btPhaseSeg1 := 0#32
  btPhaseSeg2 := 0#32
  btSjw := 0#32
  btBrp := 0#32
  btTq := 0#32
  txEchoId := 0#32
  txCanId := 0#32
  txChannel := 0#8
  txFlags := .classic
  txLen := 0#8
  txTs := 0#32
  txwLen := 0#8
  rxEchoId := 0#32
  rxCanId := 0#32
  rxChannel := 0#8
  rxFlags := .classic
  rxLen := 0#8
  rxTs := 0#32
  rxwLen := 0#8

/-- PE right after reset: every register 0 (70_reset_and_hazards.md R260), nothing on the port. -/
def State.reset : State := { regs := .reset, mem := [], pending := [], returned := [] }

end Sys2Proof.Machine
end

