-- ==== Sys2Proof/Machine/Flags.lean ====
section
/-! DEFINITION. Every flag PE has and how it is computed: the unit statuses, the decode by-products RX and TS_VALID,
the sticky FAULT flags, and each register's word as a read shows it (10_state.md R28, R29, R34; 60_exceptions.md
R230). -/

namespace Sys2Proof.Machine

/-- The four errors PE raises (60_exceptions.md R230). -/
inductive ErrorKind where
  | unsupportedBitrate
  | invalidFrame
  | illegalCommand
  | badAccess
  deriving DecidableEq, Repr

/-- The error codes (60_exceptions.md R230). -/
def ErrorKind.code : ErrorKind → BitVec 4
  | .unsupportedBitrate => 1#4
  | .invalidFrame => 2#4
  | .illegalCommand => 3#4
  | .badAccess => 4#4

/-- OK=1, ERR=0, CODE=0 (40_timing.md R112, 41_frame_encode.md R139). -/
def UnitStatus.success : UnitStatus := ⟨true, false, 0#4⟩

/-- OK=0, ERR=1, CODE of the error (40_timing.md R113, 41_frame_encode.md R140). -/
def UnitStatus.failure (k : ErrorKind) : UnitStatus := ⟨false, true, k.code⟩

/-- OK=1, ERR=0, RX, TS_VALID, CODE=0 (42_frame_decode.md R157). -/
def DecodeStatus.success (rx tsValid : Bool) : DecodeStatus := ⟨true, false, rx, tsValid, 0#4⟩

/-- OK=0, ERR=1, RX=0, TS_VALID=0, CODE of the error (42_frame_decode.md R158). -/
def DecodeStatus.failure (k : ErrorKind) : DecodeStatus := ⟨false, true, false, false, k.code⟩

/-- FAULT after one more fault: the error's own flag is set, the other kept, CODE is the latest (60_exceptions.md
R235). -/
def FaultStatus.record (k : ErrorKind) (f : FaultStatus) : FaultStatus :=
  ⟨f.illcmd || decide (k = .illegalCommand), f.badacc || decide (k = .badAccess), k.code⟩

/-- D_STATUS.RX: the echo id is the receive sentinel (30_encoding.md R87, 42_frame_decode.md R157). -/
def isReceived (echoId : Word) : Bool := decide (echoId = Config.rxSentinel)

/-- CODE ‖ 00 ‖ ERR ‖ OK (10_state.md R29). -/
def UnitStatus.word (s : UnitStatus) : Word :=
  (s.code ++ 0#2 ++ BitVec.ofBool s.err ++ BitVec.ofBool s.ok).setWidth 32

/-- CODE ‖ TS_VALID ‖ RX ‖ ERR ‖ OK (10_state.md R29). -/
def DecodeStatus.word (s : DecodeStatus) : Word :=
  (s.code ++ BitVec.ofBool s.tsValid ++ BitVec.ofBool s.rx ++ BitVec.ofBool s.err ++ BitVec.ofBool s.ok).setWidth 32

/-- CODE ‖ 00 ‖ BADACC ‖ ILLCMD (10_state.md R29). -/
def FaultStatus.word (s : FaultStatus) : Word :=
  (s.code ++ 0#2 ++ BitVec.ofBool s.badacc ++ BitVec.ofBool s.illcmd).setWidth 32

/-- ESI ‖ BRS ‖ FD ‖ 0 in one byte: TX_FLAGS, RX_FLAGS (10_state.md R34) and an FD frame's flags byte
(30_encoding.md R91). -/
def FrameFlags.byte (f : FrameFlags) : Byte :=
  0#4 ++ BitVec.ofBool f.esi ++ BitVec.ofBool f.brs ++ BitVec.ofBool f.fd ++ 0#1

/-- FD bit 1, BRS bit 2, ESI bit 3 of a byte; every other bit is dropped (10_state.md R34, 30_encoding.md R91). -/
def FrameFlags.ofByte (b : Byte) : FrameFlags := ⟨b.getLsbD 1, b.getLsbD 2, b.getLsbD 3⟩

/-- A one-bit register read as a word (10_state.md R28, R31). -/
def bitWord (b : Bool) : Word := (BitVec.ofBool b).setWidth 32

end Sys2Proof.Machine
end

