-- ==== Sys2Proof/Machine/Ops.lean ====
section
/-! DEFINITION. The shared operations: the byte registers of the buffers as memory, little-endian words, the host
port, raising an error (PE's one form of exception) and clearing every register. -/

namespace Sys2Proof.Machine

/-- The byte register numbered `a`; an unlisted one holds its reset value (70_reset_and_hazards.md R260). -/
def Memory.read : Memory → Nat → Byte
  | [], _ => Config.resetByte
  | c :: m, a => if c.1 = a then c.2 else Memory.read m a

/-- `x[a] <- b` for one byte register, keeping the list canonical: a reset value is not listed. -/
def Memory.write : Memory → Nat → Byte → Memory
  | [], a, b => if b = Config.resetByte then [] else [(a, b)]
  | c :: m, a, b =>
    if a < c.1 then (if b = Config.resetByte then c :: m else (a, b) :: c :: m)
    else if c.1 = a then (if b = Config.resetByte then m else (a, b) :: m)
    else c :: Memory.write m a b

/-- The canonical form from a lower bound on: numbers strictly rise and no cell holds the reset value. -/
def Memory.wfFrom : Nat → Memory → Bool
  | _, [] => true
  | n, c :: m => decide (n ≤ c.1) && decide (c.2 ≠ Config.resetByte) && Memory.wfFrom (c.1 + 1) m

/-- The canonical form: equal memories are equal lists. -/
def Memory.wf (m : Memory) : Bool := Memory.wfFrom 0 m

/-- `x[a+k] <- bs[k]` for k ascending (00_scope.md section 5, `MemWrite`). -/
def Memory.writeBytes (m : Memory) (a : Nat) : List Byte → Memory
  | [] => m
  | b :: bs => Memory.writeBytes (m.write a b) (a + 1) bs

/-- The `n` byte registers from `a` on, lowest first. -/
def Memory.readBytes (m : Memory) (a n : Nat) : List Byte := (List.range n).map fun i => m.read (a + i)

/-- `LE32(v)`: bits 7:0 first (00_scope.md section 5, 20_memory.md R60). -/
def le32 (v : Word) : List Byte :=
  [v.extractLsb' 0 8, v.extractLsb' 8 8, v.extractLsb' 16 8, v.extractLsb' 24 8]

/-- Byte `i` of a byte string. -/
def byteAt (bs : List Byte) (i : Nat) : Byte := bs.getD i 0#8

/-- `MemRead(addr, 4)` on a byte string: the byte at the lowest index is bits 7:0 (20_memory.md R60). -/
def le32At (bs : List Byte) (i : Nat) : Word :=
  byteAt bs (i + 3) ++ byteAt bs (i + 2) ++ byteAt bs (i + 1) ++ byteAt bs i

/-- `n` bytes: those of `bs`, then zeros (41_frame_encode.md R139, 42_frame_decode.md R155). -/
def zeroPadded (n : Nat) (bs : List Byte) : List Byte := (List.range n).map fun i => byteAt bs i

/-- `dlc2len(c)`: the `c`-th canonical length (30_encoding.md R89, R96). -/
def dlc2len (c : Nat) : Nat := Config.fdLengths.getD c 0

/-- `len2dlc(n)`: the least code whose length is at least `n` (30_encoding.md R96). -/
def len2dlc (n : Nat) : Nat := Config.fdLengths.findIdx fun l => decide (n ≤ l)

/-- The four bytes of the timestamp, when wire frames carry one (30_encoding.md R93, R94). -/
def tsBytes (tsOn : Bool) : Nat := if tsOn then 4 else 0

/-- Who raises an error, and so which status register takes it (60_exceptions.md R230). -/
inductive Raiser where
  | unitT
  | unitE
  | unitD
  | hostPort
  deriving DecidableEq, Repr

/-- `raise <Error>(unit)`: PE's exception entry. It writes the one status register of the table of 60_exceptions.md
R230 and nothing else (R233); nothing is saved and control goes nowhere (R234). There is no return (R235): the
unit's next command overwrites its status, and FAULT stays until CLR or reset. -/
def raise (k : ErrorKind) (u : Raiser) (s : State) : State :=
  match u with
  | .unitT => { s with regs := { s.regs with tStatus := .failure k } }
  | .unitE => { s with regs := { s.regs with eStatus := .failure k } }
  | .unitD => { s with regs := { s.regs with dStatus := .failure k } }
  | .hostPort => { s with regs := { s.regs with fault := s.regs.fault.record k } }

/-- Every register to its reset value: CLR and the reset input alike (70_reset_and_hazards.md R260, R261). The host
port is no register and stays (log 5). -/
def clearRegisters (s : State) : State := { s with regs := .reset, mem := [] }

/-- The value a read transaction returns to the host (30_encoding.md R80, log 3). -/
def returnValue (v : Word) (s : State) : State := { s with returned := s.returned ++ [v] }

/-- The oldest event on the port, and the state without it: transactions are performed one at a time in the order
`PIN_IF` delivers them (20_memory.md R70). -/
def takeEvent (s : State) : Option (PortEvent × State) :=
  match s.pending with
  | [] => none
  | e :: rest => some (e, { s with pending := rest })

/-- PE with nothing on its port: no register changes (log 2). -/
def idle (s : State) : State := s

end Sys2Proof.Machine
end

