-- ==== Sys2Proof/Machine/Operands.lean ====
section
/-! DEFINITION. The operand of a transaction: a register number, what it names, its access class, and the one read and
the one host write of every register (10_state.md R21 to R23, 20_memory.md R64, 30_encoding.md R84). -/

namespace Sys2Proof.Machine

/-- The four buffers of byte registers (10_state.md R23). -/
inductive Buffer where
  | txData
  | txw
  | rxw
  | rxData
  deriving DecidableEq, Repr

/-- The number of a buffer's element 0 (10_state.md R23). -/
def Buffer.base : Buffer → Nat
  | .txData => 0x100
  | .txw => 0x180
  | .rxw => 0x200
  | .rxData => 0x280

/-- How many elements a buffer has (10_state.md R23). -/
def Buffer.size : Buffer → Nat
  | .txData => 64
  | .txw => 80
  | .rxw => 80
  | .rxData => 64

/-- Every buffer, in the order of the map. -/
def Buffer.all : List Buffer := [.txData, .txw, .rxw, .rxData]

/-- An assigned register: a scalar one by name, or element `i` of a buffer (10_state.md R23). -/
inductive Reg where
  | cmd
  | cfg
  | tStatus
  | eStatus
  | dStatus
  | fault
  | tBitrate
  | tClockHz
  | tSamplePoint
  | lBrpMax
  | lSegMin
  | lSegMax
  | lSjwMax
  | lSjwPolicy
  | btPropSeg
  | btPhaseSeg1
  | btPhaseSeg2
  | btSjw
  | btBrp
  | btTq
  | txEchoId
  | txCanId
  | txChannel
  | txFlags
  | txLen
  | txTs
  | txwLen
  | rxEchoId
  | rxCanId
  | rxChannel
  | rxFlags
  | rxLen
  | rxTs
  | rxwLen
  | element (b : Buffer) (i : Nat)
  deriving DecidableEq, Repr

/-- The number of a register (10_state.md R23, R27 to R38). -/
def Reg.number : Reg → Nat
  | .cmd => 0x000
  | .cfg => 0x001
  | .tStatus => 0x002
  | .eStatus => 0x003
  | .dStatus => 0x004
  | .fault => 0x005
  | .tBitrate => 0x010
  | .tClockHz => 0x011
  | .tSamplePoint => 0x012
  | .lBrpMax => 0x014
  | .lSegMin => 0x015
  | .lSegMax => 0x016
  | .lSjwMax => 0x017
  | .lSjwPolicy => 0x018
  | .btPropSeg => 0x020
  | .btPhaseSeg1 => 0x021
  | .btPhaseSeg2 => 0x022
  | .btSjw => 0x023
  | .btBrp => 0x024
  | .btTq => 0x025
  | .txEchoId => 0x030
  | .txCanId => 0x031
  | .txChannel => 0x032
  | .txFlags => 0x033
  | .txLen => 0x034
  | .txTs => 0x035
  | .txwLen => 0x036
  | .rxEchoId => 0x040
  | .rxCanId => 0x041
  | .rxChannel => 0x042
  | .rxFlags => 0x043
  | .rxLen => 0x044
  | .rxTs => 0x045
  | .rxwLen => 0x046
  | .element b i => b.base + i

/-- The scalar registers, in the order of their numbers. -/
def Reg.scalars : List Reg :=
  [.cmd, .cfg, .tStatus, .eStatus, .dStatus, .fault, .tBitrate, .tClockHz, .tSamplePoint, .lBrpMax, .lSegMin,
   .lSegMax, .lSjwMax, .lSjwPolicy, .btPropSeg, .btPhaseSeg1, .btPhaseSeg2, .btSjw, .btBrp, .btTq, .txEchoId,
   .txCanId, .txChannel, .txFlags, .txLen, .txTs, .txwLen, .rxEchoId, .rxCanId, .rxChannel, .rxFlags, .rxLen,
   .rxTs, .rxwLen]

/-- A number lies in a buffer. -/
def Buffer.holds (b : Buffer) (n : Nat) : Bool := b.base.ble n && n.blt (b.base + b.size)

/-- The register a number names; none for an unassigned number (10_state.md R23, 20_memory.md R69). -/
def regAt (a : RegNum) : Option Reg :=
  match Reg.scalars.find? fun r => r.number == a.toNat with
  | some r => some r
  | none => (Buffer.all.find? fun b => b.holds a.toNat).map fun b => .element b (a.toNat - b.base)

/-- The access classes (10_state.md R22). -/
inductive Access where
  | rw
  | ro
  | wo
  deriving DecidableEq, Repr

/-- The access class of a buffer's elements (10_state.md R35 to R38). -/
def Buffer.access : Buffer → Access
  | .txData => .rw
  | .txw => .ro
  | .rxw => .rw
  | .rxData => .ro

/-- The access class of a register (10_state.md R27 to R38). -/
def Reg.access : Reg → Access
  | .cmd => .wo
  | .cfg => .rw
  | .tStatus => .ro
  | .eStatus => .ro
  | .dStatus => .ro
  | .fault => .ro
  | .tBitrate => .rw
  | .tClockHz => .rw
  | .tSamplePoint => .rw
  | .lBrpMax => .rw
  | .lSegMin => .rw
  | .lSegMax => .rw
  | .lSjwMax => .rw
  | .lSjwPolicy => .rw
  | .btPropSeg => .ro
  | .btPhaseSeg1 => .ro
  | .btPhaseSeg2 => .ro
  | .btSjw => .ro
  | .btBrp => .ro
  | .btTq => .ro
  | .txEchoId => .rw
  | .txCanId => .rw
  | .txChannel => .rw
  | .txFlags => .rw
  | .txLen => .rw
  | .txTs => .rw
  | .txwLen => .ro
  | .rxEchoId => .ro
  | .rxCanId => .ro
  | .rxChannel => .ro
  | .rxFlags => .ro
  | .rxLen => .ro
  | .rxTs => .ro
  | .rxwLen => .rw
  | .element b _ => b.access

/-- The bits of a register that are state, as a mask; the others read 0 and a write to them is dropped (10_state.md
R21, R27 to R38; log 7). -/
def Reg.implemented : Reg → Word
  | .cmd => 0#32
  | .cfg => 0x1#32
  | .tStatus => 0xF3#32
  | .eStatus => 0xF3#32
  | .dStatus => 0xFF#32
  | .fault => 0xF3#32
  | .lSjwPolicy => 0x1#32
  | .txChannel => 0xFF#32
  | .txFlags => 0xE#32
  | .txLen => 0xFF#32
  | .txwLen => 0xFF#32
  | .rxChannel => 0xFF#32
  | .rxFlags => 0xE#32
  | .rxLen => 0xFF#32
  | .rxwLen => 0xFF#32
  | .element _ _ => 0xFF#32
  | .tBitrate => 0xFFFFFFFF#32
  | .tClockHz => 0xFFFFFFFF#32
  | .tSamplePoint => 0xFFFFFFFF#32
  | .lBrpMax => 0xFFFFFFFF#32
  | .lSegMin => 0xFFFFFFFF#32
  | .lSegMax => 0xFFFFFFFF#32
  | .lSjwMax => 0xFFFFFFFF#32
  | .btPropSeg => 0xFFFFFFFF#32
  | .btPhaseSeg1 => 0xFFFFFFFF#32
  | .btPhaseSeg2 => 0xFFFFFFFF#32
  | .btSjw => 0xFFFFFFFF#32
  | .btBrp => 0xFFFFFFFF#32
  | .btTq => 0xFFFFFFFF#32
  | .txEchoId => 0xFFFFFFFF#32
  | .txCanId => 0xFFFFFFFF#32
  | .txTs => 0xFFFFFFFF#32
  | .rxEchoId => 0xFFFFFFFF#32
  | .rxCanId => 0xFFFFFFFF#32
  | .rxTs => 0xFFFFFFFF#32

/-- `zext_32` of a byte. -/
def byteWord (b : Byte) : Word := b.setWidth 32

/-- The low byte of a word: what a byte register keeps of it (30_encoding.md R84). -/
def lowByte (v : Word) : Byte := v.extractLsb' 0 8

/-- `zext_32` of a register's implemented bits; CMD reads 0 (20_memory.md R64, R68). -/
def readReg (r : Reg) (s : State) : Word :=
  match r with
  | .cmd => 0#32
  | .cfg => bitWord s.regs.cfgHwTs
  | .tStatus => s.regs.tStatus.word
  | .eStatus => s.regs.eStatus.word
  | .dStatus => s.regs.dStatus.word
  | .fault => s.regs.fault.word
  | .tBitrate => s.regs.tBitrate
  | .tClockHz => s.regs.tClockHz
  | .tSamplePoint => s.regs.tSamplePoint
  | .lBrpMax => s.regs.lBrpMax
  | .lSegMin => s.regs.lSegMin
  | .lSegMax => s.regs.lSegMax
  | .lSjwMax => s.regs.lSjwMax
  | .lSjwPolicy => bitWord s.regs.lSjwMaxLegal
  | .btPropSeg => s.regs.btPropSeg
  | .btPhaseSeg1 => s.regs.btPhaseSeg1
  | .btPhaseSeg2 => s.regs.btPhaseSeg2
  | .btSjw => s.regs.btSjw
  | .btBrp => s.regs.btBrp
  | .btTq => s.regs.btTq
  | .txEchoId => s.regs.txEchoId
  | .txCanId => s.regs.txCanId
  | .txChannel => byteWord s.regs.txChannel
  | .txFlags => byteWord s.regs.txFlags.byte
  | .txLen => byteWord s.regs.txLen
  | .txTs => s.regs.txTs
  | .txwLen => byteWord s.regs.txwLen
  | .rxEchoId => s.regs.rxEchoId
  | .rxCanId => s.regs.rxCanId
  | .rxChannel => byteWord s.regs.rxChannel
  | .rxFlags => byteWord s.regs.rxFlags.byte
  | .rxLen => byteWord s.regs.rxLen
  | .rxTs => s.regs.rxTs
  | .rxwLen => byteWord s.regs.rxwLen
  | .element b i => byteWord (s.mem.read (b.base + i))

/-- The host's write of an RW register: the implemented bits are kept, the rest dropped (30_encoding.md R84). A
register that is not RW keeps its value (20_memory.md R68). -/
def writeReg (r : Reg) (v : Word) (s : State) : State :=
  match r with
  | .cmd => s
  | .cfg => { s with regs := { s.regs with cfgHwTs := v.getLsbD 0 } }
  | .tStatus => s
  | .eStatus => s
  | .dStatus => s
  | .fault => s
  | .tBitrate => { s with regs := { s.regs with tBitrate := v } }
  | .tClockHz => { s with regs := { s.regs with tClockHz := v } }
  | .tSamplePoint => { s with regs := { s.regs with tSamplePoint := v } }
  | .lBrpMax => { s with regs := { s.regs with lBrpMax := v } }
  | .lSegMin => { s with regs := { s.regs with lSegMin := v } }
  | .lSegMax => { s with regs := { s.regs with lSegMax := v } }
  | .lSjwMax => { s with regs := { s.regs with lSjwMax := v } }
  | .lSjwPolicy => { s with regs := { s.regs with lSjwMaxLegal := v.getLsbD 0 } }
  | .btPropSeg => s
  | .btPhaseSeg1 => s
  | .btPhaseSeg2 => s
  | .btSjw => s
  | .btBrp => s
  | .btTq => s
  | .txEchoId => { s with regs := { s.regs with txEchoId := v } }
  | .txCanId => { s with regs := { s.regs with txCanId := v } }
  | .txChannel => { s with regs := { s.regs with txChannel := lowByte v } }
  | .txFlags => { s with regs := { s.regs with txFlags := .ofByte (lowByte v) } }
  | .txLen => { s with regs := { s.regs with txLen := lowByte v } }
  | .txTs => { s with regs := { s.regs with txTs := v } }
  | .txwLen => s
  | .rxEchoId => s
  | .rxCanId => s
  | .rxChannel => s
  | .rxFlags => s
  | .rxLen => s
  | .rxTs => s
  | .rxwLen => { s with regs := { s.regs with rxwLen := lowByte v } }
  | .element .txData i => { s with mem := s.mem.write (Buffer.txData.base + i) (lowByte v) }
  | .element .txw _ => s
  | .element .rxw i => { s with mem := s.mem.write (Buffer.rxw.base + i) (lowByte v) }
  | .element .rxData _ => s

/-- The contents of a buffer, element 0 first. -/
def readBuffer (b : Buffer) (s : State) : List Byte := s.mem.readBytes b.base b.size

/-- A unit's write of a whole buffer: every element, those past the given bytes as 0 (41_frame_encode.md R139,
42_frame_decode.md R155). -/
def writeBuffer (b : Buffer) (bs : List Byte) (s : State) : State :=
  { s with mem := s.mem.writeBytes b.base (zeroPadded b.size bs) }

end Sys2Proof.Machine
end

