-- ==== Sys2Proof/Machine/FrameDecode.lean ====
section
/-! DEFINITION. Unit D, the frame decoder, and its command FDEC (42_frame_decode.md). -/

namespace Sys2Proof.Machine

/-- What the variant bit and the length code of a packet fix: the data area's length, the Frame's length and its
flags (42_frame_decode.md R152 checks 3 and 4, R154, R155). -/
structure WireShape where
  area : Nat
  len : Nat
  flags : FrameFlags
  deriving DecidableEq, Repr

/-- Check 3: the variant (byte 10 bit 1) and the length code (byte 8) (42_frame_decode.md R152). -/
def wireShape (bs : List Byte) : Option WireShape :=
  let dlc := (byteAt bs 8).toNat
  let flags := FrameFlags.ofByte (byteAt bs 10)
  if flags.fd then
    if dlc > Config.dlcMax then none else some ⟨dlc2len dlc, dlc2len dlc, flags⟩
  else if dlc > Config.classicMax then none
  else some ⟨8, dlc, .classic⟩

/-- The Frame of a packet of the given shape (42_frame_decode.md R153 to R156). -/
def frameOfWire (tsOn : Bool) (bs : List Byte) (w : WireShape) : Frame where
  echoId := le32At bs 0
  canId := le32At bs 4
  channel := byteAt bs 9
  flags := w.flags
  len := BitVec.ofNat 8 w.len
  data := (List.range 64).map fun i => if i < w.len then byteAt bs (Config.hdrBytes + i) else 0#8
  ts := if tsOn then le32At bs (Config.hdrBytes + w.area) else 0#32

/-- `decode(bytes) -> Frame` of the first `n` bytes of the wire buffer `bs`; none is `InvalidFrame`. The four checks
in their order (42_frame_decode.md R152, R164). -/
def decodeFrame (tsOn : Bool) (n : Nat) (bs : List Byte) : Option Frame :=
  if n < Config.hdrBytes then none
  else if n > Config.wbufBytes then none
  else
    match wireShape bs with
    | none => none
    | some w => if n ≠ Config.hdrBytes + w.area + tsBytes tsOn then none else some (frameOfWire tsOn bs w)

/-- What a successful FDEC writes: the RX registers, all of RX_DATA and D_STATUS (42_frame_decode.md R153 to R157). -/
def writeRxFrame (tsOn : Bool) (f : Frame) (s : State) : State :=
  { writeBuffer .rxData f.data s with
    regs := { s.regs with
      rxEchoId := f.echoId
      rxCanId := f.canId
      rxChannel := f.channel
      rxFlags := f.flags
      rxLen := f.len
      rxTs := f.ts
      dStatus := .success (isReceived f.echoId) tsOn } }

/-- `FDEC` (42_frame_decode.md R150, R157, R158). -/
def execFdec (s : State) : Host.Outcome State Fault Refusal :=
  match decodeFrame s.regs.cfgHwTs s.regs.rxwLen.toNat (readBuffer .rxw s) with
  | some f => .next (writeRxFrame s.regs.cfgHwTs f s)
  | none => .next (raise .invalidFrame .unitD s)

end Sys2Proof.Machine
end

