-- ==== Sys2Proof/Machine/FrameEncode.lean ====
section
/-! DEFINITION. Unit E, the frame encoder, and its command FENC (41_frame_encode.md). -/

namespace Sys2Proof.Machine

/-- The Frame to encode, as the TX registers hold it (10_state.md R34, R35). -/
def txFrame (s : State) : Frame where
  echoId := s.regs.txEchoId
  canId := s.regs.txCanId
  channel := s.regs.txChannel
  flags := s.regs.txFlags
  len := s.regs.txLen
  data := readBuffer .txData s
  ts := s.regs.txTs

/-- The data area: the first `n` data bytes, then 0 up to `area` bytes (41_frame_encode.md R137). -/
def dataArea (data : List Byte) (n area : Nat) : List Byte :=
  (List.range area).map fun i => if i < n then byteAt data i else 0#8

/-- The bytes of a wire frame in the order of 30_encoding.md R86 (41_frame_encode.md R135, R137, R138). -/
def wireFrame (tsOn : Bool) (f : Frame) (dlc area : Nat) (flagsByte : Byte) : List Byte :=
  le32 f.echoId ++ le32 f.canId ++ [BitVec.ofNat 8 dlc, f.channel, flagsByte, 0#8]
    ++ dataArea f.data f.len.toNat area ++ (if tsOn then le32 f.ts else [])

/-- The flags byte of an FD frame: FD set, BRS and ESI as given (41_frame_encode.md R136). -/
def fdFlagsByte (f : FrameFlags) : Byte := FrameFlags.byte { f with fd := true }

/-- `encode(Frame) -> bytes`; none is `InvalidFrame` (41_frame_encode.md R133, R134, R141, R145). -/
def encodeFrame (tsOn : Bool) (f : Frame) : Option (List Byte) :=
  if f.flags.fd then
    if f.len.toNat > Config.fdMax then none
    else
      let dlc := len2dlc f.len.toNat
      some (wireFrame tsOn f dlc (dlc2len dlc) (fdFlagsByte f.flags))
  else if f.len.toNat > Config.classicMax then none
  else some (wireFrame tsOn f f.len.toNat 8 0x00#8)

/-- What a successful FENC writes: all of TXW, TXW_LEN and E_STATUS (41_frame_encode.md R139). -/
def writeWireFrame (w : List Byte) (s : State) : State :=
  { writeBuffer .txw w s with
    regs := { s.regs with txwLen := BitVec.ofNat 8 w.length, eStatus := .success } }

/-- `FENC` (41_frame_encode.md R130, R139, R140). -/
def execFenc (s : State) : Host.Outcome State Fault Refusal :=
  match encodeFrame s.regs.cfgHwTs (txFrame s) with
  | some w => .next (writeWireFrame w s)
  | none => .next (raise .invalidFrame .unitE s)

end Sys2Proof.Machine
end

