-- ==== Sys2Proof/Machine/HostAccess.lean ====
section
/-! DEFINITION. Host access and the housekeeping commands: RD, WR, NOP, CLR and the illegal command
(43_host_access.md). -/

namespace Sys2Proof.Machine

/-- `NOP` changes no state at all (43_host_access.md R172). -/
def execNop (s : State) : Host.Outcome State Fault Refusal := .next s

/-- `CLR` puts every register in its reset state (43_host_access.md R173). -/
def execClr (s : State) : Host.Outcome State Fault Refusal := .next (clearRegisters s)

/-- An illegal command raises `IllegalCommand` whatever its command word is; nothing is stored and no unit runs
(43_host_access.md R176). -/
def execIllegal (_data : Word) (s : State) : Host.Outcome State Fault Refusal :=
  .next (raise .illegalCommand .hostPort s)

/-- `WR addr, data`: an RW register keeps the bits it implements; any other number is refused (43_host_access.md
R171, 20_memory.md R67, R68). -/
def execWr (addr : RegNum) (data : Word) (s : State) : Host.Outcome State Fault Refusal :=
  match regAt addr with
  | some r =>
    if r.access = .rw then .next (writeReg r data s) else .next (raise .badAccess .hostPort s)
  | none => .next (raise .badAccess .hostPort s)

/-- `RD addr`: the register's value, 0 for CMD; an unassigned number returns 0 and is refused (43_host_access.md R170,
20_memory.md R67, R68). The DATA field is ignored. -/
def execRd (addr : RegNum) (_data : Word) (s : State) : Host.Outcome State Fault Refusal :=
  match regAt addr with
  | some r => .next (returnValue (readReg r s) s)
  | none => .next (returnValue 0#32 (raise .badAccess .hostPort s))

end Sys2Proof.Machine
end

