-- ==== Sys2Proof/Machine/Timing.lean ====
section
/-! DEFINITION. Unit T, the bit-timing calculator, and its command TCALC (40_timing.md). All arithmetic is exact over
the natural numbers (R119). -/

namespace Sys2Proof.Machine

/-- TCALC's operands as natural numbers, under the names of 40_timing.md R102. -/
structure TimingOperands where
  /-- `B` -/
  bitrate : Nat
  /-- `F` -/
  clockHz : Nat
  /-- `SP` -/
  samplePoint : Nat
  brpMax : Nat
  lo : Nat
  hi : Nat
  sjwMax : Nat
  /-- `policy` = 1 -/
  maxLegal : Bool
  deriving DecidableEq, Repr

/-- The operands as the registers hold them; `lo = max(1, L_SEG_MIN)` (40_timing.md R102). -/
def timingOperands (s : State) : TimingOperands where
  bitrate := s.regs.tBitrate.toNat
  clockHz := s.regs.tClockHz.toNat
  samplePoint := s.regs.tSamplePoint.toNat
  brpMax := s.regs.lBrpMax.toNat
  lo := max 1 s.regs.lSegMin.toNat
  hi := s.regs.lSegMax.toNat
  sjwMax := s.regs.lSjwMax.toNat
  maxLegal := s.regs.lSjwMaxLegal

/-- A prescaler with its quanta count and a split `t1 + ps2 + 1 = q` (40_timing.md R104, R105). -/
structure Candidate where
  brp : Nat
  q : Nat
  t1 : Nat
  ps2 : Nat
  deriving DecidableEq, Repr

/-- The quanta count of a prescaler with integral quanta (40_timing.md R103). -/
def quanta (o : TimingOperands) (brp : Nat) : Option Nat :=
  let d := brp * o.bitrate
  if d = 0 ∨ o.clockHz % d ≠ 0 then none else some (o.clockHz / d)

/-- The natural numbers from `a` to `b`, ascending; none when `a > b` (00_scope.md section 5). -/
def ascending (a b : Nat) : List Nat := List.range' a (b + 1 - a)

/-- The legal splits of `q`, `t1` ascending: those of 40_timing.md R105, by the bounds of R115. -/
def splits (o : TimingOperands) (brp q : Nat) : List Candidate :=
  (ascending (max (2 * o.lo) (q - 1 - o.hi)) (min (o.lo + o.hi) (q - 1 - o.lo))).map fun t1 =>
    ⟨brp, q, t1, q - 1 - t1⟩

/-- The candidates of one prescaler (40_timing.md R105). -/
def candidatesAt (o : TimingOperands) (brp : Nat) : List Candidate :=
  match quanta o brp with
  | none => []
  | some q => splits o brp q

/-- Every candidate, in the order of the scan of 40_timing.md R108; the outer loop stops where R116 lets it (log 10). -/
def candidates (o : TimingOperands) : List Candidate :=
  (ascending Config.brpFirst (min o.brpMax (o.clockHz / o.bitrate))).flatMap (candidatesAt o)

/-- `|a − b|`, taken in ℤ (00_scope.md section 5). -/
def absDiff (a b : Nat) : Nat := if a ≤ b then b - a else a - b

/-- `e`, the numerator of the sample-point error of a candidate over `1000*q` (40_timing.md R106, R117). -/
def errorNumerator (sync samplePoint : Nat) (c : Candidate) : Nat :=
  absDiff (Config.spScale * (c.t1 + sync)) (samplePoint * c.q)

/-- Candidate `a` has strictly smaller error than `b`, cross-multiplied (40_timing.md R106). -/
def smallerError (sync samplePoint : Nat) (a b : Candidate) : Bool :=
  decide (errorNumerator sync samplePoint a * b.q < errorNumerator sync samplePoint b * a.q)

/-- One step of the scan: a later candidate replaces `best` only when its error is strictly smaller (40_timing.md
R108). -/
def keepBest (sync samplePoint : Nat) (best : Option Candidate) (c : Candidate) : Option Candidate :=
  match best with
  | none => some c
  | some b => if smallerError sync samplePoint c b then some c else some b

/-- The candidate TCALC chooses (40_timing.md R107, R108). -/
def chooseCandidate (sync : Nat) (o : TimingOperands) : Option Candidate :=
  (candidates o).foldl (keepBest sync o.samplePoint) none

/-- `sync_jump_width` (40_timing.md R111). -/
def jumpWidth (o : TimingOperands) (ps1 ps2 : Nat) : Nat :=
  if o.maxLegal then min ps1 (min ps2 (max 1 o.sjwMax)) else min 1 ps2

/-- The result of `compute`: the five BitTiming fields and the total quanta (10_state.md R20, R32). -/
structure BitTiming where
  propSeg : Nat
  phaseSeg1 : Nat
  phaseSeg2 : Nat
  sjw : Nat
  brp : Nat
  tq : Nat
  deriving DecidableEq, Repr

/-- The fields of the chosen candidate (40_timing.md R109, R110, R111). -/
def bitTimingOf (o : TimingOperands) (c : Candidate) : BitTiming where
  propSeg := o.lo
  phaseSeg1 := c.t1 - o.lo
  phaseSeg2 := c.ps2
  sjw := jumpWidth o (c.t1 - o.lo) c.ps2
  brp := c.brp
  tq := c.q

/-- `compute(bitrate, clock_hz, sample_point, limits)`; none is `UnsupportedBitrate` (40_timing.md R100). -/
def computeTiming (sync : Nat) (o : TimingOperands) : Option BitTiming :=
  (chooseCandidate sync o).map (bitTimingOf o)

/-- What a successful TCALC writes: BT_* and T_STATUS (40_timing.md R112). -/
def writeBitTiming (b : BitTiming) (s : State) : State :=
  { s with regs := { s.regs with
      btPropSeg := BitVec.ofNat 32 b.propSeg
      btPhaseSeg1 := BitVec.ofNat 32 b.phaseSeg1
      btPhaseSeg2 := BitVec.ofNat 32 b.phaseSeg2
      btSjw := BitVec.ofNat 32 b.sjw
      btBrp := BitVec.ofNat 32 b.brp
      btTq := BitVec.ofNat 32 b.tq
      tStatus := .success } }

/-- `TCALC` (40_timing.md R100, R112, R113). -/
def execTcalc (s : State) : Host.Outcome State Fault Refusal :=
  match computeTiming Config.syncInSp (timingOperands s) with
  | some b => .next (writeBitTiming b s)
  | none => .next (raise .unsupportedBitrate .unitT s)

end Sys2Proof.Machine
end

