-- ==== Sys2Proof/Machine/Dispatch.lean ====
section
/-! DEFINITION. The dispatch of a classified transaction to its meaning (43_host_access.md R174). -/

namespace Sys2Proof.Machine

def exec (i : Instr) (s : State) : Host.Outcome State Fault Refusal :=
  match i with
  | .nop => Sys2Proof.Machine.execNop s
  | .tcalc => Sys2Proof.Machine.execTcalc s
  | .fenc => Sys2Proof.Machine.execFenc s
  | .fdec => Sys2Proof.Machine.execFdec s
  | .clr => Sys2Proof.Machine.execClr s
  | .illegal data => Sys2Proof.Machine.execIllegal data s
  | .wr addr data => Sys2Proof.Machine.execWr addr data s
  | .rd addr data => Sys2Proof.Machine.execRd addr data s

end Sys2Proof.Machine
end

