-- ==== Sys2Proof/Machine/Step.lean ====
section
/-! DEFINITION. One step: PE performs the oldest event on its port (20_memory.md R70; 70_reset_and_hazards.md R261,
R271). -/

namespace Sys2Proof.Machine

/-- A transaction is decoded and executed, the reset input clears every register, and with nothing on the port PE
stays as it is (log 1, log 2, log 4). -/
def step (s : State) : Host.Outcome State Fault Refusal :=
  match takeEvent s with
  | none => .next (idle s)
  | some (.reset, s') => .next (clearRegisters s')
  | some (.transaction w, s') => exec (decodeWord w) s'

/-- The state in which the `nbits` low bits of `w` are the next transaction on the port, before whatever waits there.
A number that is no transaction word is not put there (log 9). -/
def State.withFetchWord (s : State) (nbits w : Nat) : State :=
  if w % 2 ^ nbits < 2 ^ 45 then
    { s with pending := .transaction (BitVec.ofNat 45 (w % 2 ^ nbits)) :: s.pending }
  else s

end Sys2Proof.Machine
end

