-- ==== Sys2Proof/Machine/Assembler.lean ====
section
/-! DEFINITION. The host's side of the port, as words: the assembler lines of 30_encoding.md R97, the
pseudo-instructions of R98, and the byte image of a BitTiming (20_memory.md R62). PE executes none of it; it is what a
host sends and sees (log 16). -/

namespace Sys2Proof.Machine

/-- `RD reg`: WR=0, DATA=0 (30_encoding.md R97). -/
def asmRd (r : Reg) : TxnWord := encode (.rd (BitVec.ofNat 12 r.number) 0#32)

/-- `WR reg, value`: WR=1 (30_encoding.md R97). -/
def asmWr (r : Reg) (v : Word) : TxnWord := encode (.wr (BitVec.ofNat 12 r.number) v)

/-- `CMD value` (30_encoding.md R98). -/
def asmCmd (v : Word) : TxnWord := commandWord v

/-- `TSET bitrate, clock, sp` (30_encoding.md R98). -/
def asmTset (bitrate clock sp : Word) : List TxnWord :=
  [asmWr .tBitrate bitrate, asmWr .tClockHz clock, asmWr .tSamplePoint sp]

/-- `LIMITS brp_max, seg_min, seg_max, sjw_max, policy` (30_encoding.md R98). -/
def asmLimits (brpMax segMin segMax sjwMax policy : Word) : List TxnWord :=
  [asmWr .lBrpMax brpMax, asmWr .lSegMin segMin, asmWr .lSegMax segMax, asmWr .lSjwMax sjwMax,
   asmWr .lSjwPolicy policy]

/-- `TXHDR echo, canid, chan, flags, ts` (30_encoding.md R98). -/
def asmTxhdr (echo canId chan flags ts : Word) : List TxnWord :=
  [asmWr .txEchoId echo, asmWr .txCanId canId, asmWr .txChannel chan, asmWr .txFlags flags, asmWr .txTs ts]

/-- The writes of a buffer's elements from element `i` on, ascending. -/
def asmFill (b : Buffer) (i : Nat) : List Byte → List TxnWord
  | [] => []
  | v :: vs => asmWr (.element b i) (byteWord v) :: asmFill b (i + 1) vs

/-- `TXBYTES b0, …` (30_encoding.md R98). -/
def asmTxbytes (bs : List Byte) : List TxnWord :=
  asmFill .txData 0 bs ++ [asmWr .txLen (BitVec.ofNat 32 bs.length)]

/-- `RXBYTES b0, …` (30_encoding.md R98). -/
def asmRxbytes (bs : List Byte) : List TxnWord :=
  asmFill .rxw 0 bs ++ [asmWr .rxwLen (BitVec.ofNat 32 bs.length)]

/-- The pairs `RD TXW[i]`, `WR RXW[i], v` of COPYW from element `i` on, the values read being `vs`. -/
def asmCopyPairs (i : Nat) : List Byte → List TxnWord
  | [] => []
  | v :: vs => asmRd (.element .txw i) :: asmWr (.element .rxw i) (byteWord v) :: asmCopyPairs (i + 1) vs

/-- `COPYW` issued in state `s`: the host carries each value read into the next write. COPYW writes only RXW and
RXW_LEN, so what its reads return is what TXW and TXW_LEN hold in `s` (30_encoding.md R98). -/
def asmCopyw (s : State) : List TxnWord :=
  asmRd .txwLen :: asmCopyPairs 0 (s.mem.readBytes Buffer.txw.base s.regs.txwLen.toNat)
    ++ [asmWr .rxwLen (byteWord s.regs.txwLen)]

/-- A host's transactions as they wait on the port, first to be performed first. -/
def onPort (ws : List TxnWord) : List PortEvent := ws.map .transaction

/-- EFF, bit 31 of a can_id (30_encoding.md R88). PE copies a can_id whole and inspects none of its fields. -/
def canIdEff (canId : Word) : Bool := canId.getLsbD 31

/-- RTR, bit 30 of a can_id (30_encoding.md R88). -/
def canIdRtr (canId : Word) : Bool := canId.getLsbD 30

/-- ERR, bit 29 of a can_id (30_encoding.md R88). -/
def canIdErr (canId : Word) : Bool := canId.getLsbD 29

/-- The 29-bit identifier, bits 28:0 of a can_id (30_encoding.md R88). -/
def canIdIdentifier (canId : Word) : BitVec 29 := canId.extractLsb' 0 29

/-- The 20 bytes a host sends in a BITTIMING or DATA_BITTIMING transfer (20_memory.md R62). -/
def bitTimingImage (s : State) : List Byte :=
  le32 s.regs.btPropSeg ++ le32 s.regs.btPhaseSeg1 ++ le32 s.regs.btPhaseSeg2 ++ le32 s.regs.btSjw
    ++ le32 s.regs.btBrp

end Sys2Proof.Machine
end

