-- ==== Sys2Proof/Safety.lean ====
section
/-! DEFINITION. What the statements speak of: a legal state of PE (the invariants the spec's rules give), a host that
keeps the interface's contract, the search's candidates and order as the spec states them, an accepted packet, and the
register sets of two threads. Nothing here is part of the machine. -/

namespace Sys2Proof.Safety

open Sys2Proof.Machine

/-- The buffers' memory is in its canonical form and lists only numbers of the four buffers: no other byte register
exists (10_state.md R21, R23). -/
abbrev MemoryLegal (m : Memory) : Prop :=
  m.wf = true ∧ ∀ c ∈ m, (Buffer.all.any fun b => b.holds c.1) = true

/-- T_STATUS or E_STATUS: never run, OK, or the unit's one error (10_state.md R29). -/
abbrev UnitStatusLegal (k : ErrorKind) (u : UnitStatus) : Prop := u = .never ∨ u = .success ∨ u = .failure k

/-- D_STATUS: never run, OK with its two by-products, or `InvalidFrame` (10_state.md R29). -/
abbrev DecodeStatusLegal (d : DecodeStatus) : Prop :=
  d = .never ∨ d = .failure .invalidFrame ∨ d = .success d.rx d.tsValid

/-- FAULT: CODE is 0 with no fault since reset, else the code of a fault whose flag is set (10_state.md R29). -/
abbrev FaultStatusLegal (f : FaultStatus) : Prop :=
  f = .clear ∨ (f.illcmd = true ∧ f.code = 3#4) ∨ (f.badacc = true ∧ f.code = 4#4)

/-- The four status registers (10_state.md R29). -/
abbrev StatusLegal (r : Regs) : Prop :=
  UnitStatusLegal .unsupportedBitrate r.tStatus ∧ UnitStatusLegal .invalidFrame r.eStatus ∧
    DecodeStatusLegal r.dStatus ∧ FaultStatusLegal r.fault

/-- No TCALC has succeeded since reset: BT_* are 0 (70_reset_and_hazards.md R260). -/
abbrev NoBitTiming (r : Regs) : Prop :=
  r.btPropSeg = 0#32 ∧ r.btPhaseSeg1 = 0#32 ∧ r.btPhaseSeg2 = 0#32 ∧ r.btSjw = 0#32 ∧ r.btBrp = 0#32 ∧ r.btTq = 0#32

/-- The document's invariants of a BitTiming (10_state.md R20, R33). -/
abbrev SoundBitTiming (r : Regs) : Prop :=
  r.btTq.toNat = r.btPropSeg.toNat + r.btPhaseSeg1.toNat + r.btPhaseSeg2.toNat + 1 ∧
    1 ≤ r.btPropSeg.toNat ∧ 1 ≤ r.btPhaseSeg1.toNat ∧ 1 ≤ r.btPhaseSeg2.toNat ∧ 1 ≤ r.btBrp.toNat ∧
    1 ≤ r.btSjw.toNat ∧ r.btSjw.toNat ≤ min r.btPhaseSeg1.toNat r.btPhaseSeg2.toNat

/-- BT_* hold either nothing yet or a sound BitTiming; an OK status means the latter (10_state.md R29, R33). -/
abbrev BitTimingLegal (r : Regs) : Prop :=
  (NoBitTiming r ∧ r.tStatus.ok = false) ∨ SoundBitTiming r

/-- The lengths a wire frame can have (30_encoding.md R93): a canonical data area after the header, with or without
the timestamp; a classic frame's area is 8 bytes. -/
def wireLengths : List Nat :=
  Config.fdLengths.flatMap fun a => [Config.hdrBytes + a, Config.hdrBytes + a + 4]

/-- TXW_LEN is 0 or a wire length, an OK status means the latter, and TXW past it is 0 (10_state.md R36). -/
abbrev TxWireLegal (s : State) : Prop :=
  ((s.regs.txwLen = 0#8 ∧ s.regs.eStatus.ok = false) ∨ s.regs.txwLen.toNat ∈ wireLengths) ∧
    ∀ i < 80, s.regs.txwLen.toNat ≤ i → s.mem.read (Buffer.txw.base + i) = 0#8

/-- RX_FLAGS, RX_LEN and RX_DATA are those of a Frame (10_state.md R37), and after a successful FDEC the RX flag and
an absent timestamp are as 10_state.md R29 and R37 say. -/
abbrev RxFrameLegal (s : State) : Prop :=
  (s.regs.rxFlags.fd = false → s.regs.rxFlags = .classic ∧ s.regs.rxLen.toNat ≤ Config.classicMax) ∧
    (s.regs.rxFlags.fd = true → s.regs.rxLen.toNat ∈ Config.fdLengths) ∧
    (∀ i < 64, s.regs.rxLen.toNat ≤ i → s.mem.read (Buffer.rxData.base + i) = 0#8) ∧
    (s.regs.dStatus.ok = true →
      s.regs.dStatus.rx = isReceived s.regs.rxEchoId ∧ (s.regs.dStatus.tsValid = false → s.regs.rxTs = 0#32))

/-- A register's access keeps the contract: a read of an assigned number, a write of an RW register, a command that
is not illegal (60_exceptions.md R241, 20_memory.md R67, R68). -/
def keepsContract : Instr → Bool
  | .nop => true
  | .tcalc => true
  | .fenc => true
  | .fdec => true
  | .clr => true
  | .illegal _ => false
  | .wr addr _ => (regAt addr).any fun r => decide (r.access = .rw)
  | .rd addr _ => (regAt addr).isSome

/-- 40_timing.md R105, word for word: the four conditions a triple must meet to be a candidate. -/
abbrev IsCandidate (o : TimingOperands) (c : Candidate) : Prop :=
  (1 ≤ c.brp ∧ c.brp ≤ o.brpMax ∧ c.brp * o.bitrate ≠ 0 ∧ o.clockHz % (c.brp * o.bitrate) = 0 ∧
      c.q = o.clockHz / (c.brp * o.bitrate)) ∧
    c.t1 + c.ps2 + 1 = c.q ∧
    (2 * o.lo ≤ c.t1 ∧ c.t1 ≤ o.lo + o.hi) ∧
    (o.lo ≤ c.ps2 ∧ c.ps2 ≤ o.hi)

/-- `e = |1000*T1 − SP*q|` with the normative `SYNC_IN_SP = 0` (40_timing.md R106). -/
def spError (samplePoint : Nat) (c : Candidate) : Nat :=
  ((1000 * c.t1 : Int) - (samplePoint * c.q : Int)).natAbs

/-- 40_timing.md R107: `a` comes before `b` in the order of the choice: smaller error, then smaller `brp`, then
smaller `q`, then smaller `T1`. -/
def chosenBefore (samplePoint : Nat) (a b : Candidate) : Prop :=
  spError samplePoint a * b.q < spError samplePoint b * a.q ∨
    (spError samplePoint a * b.q = spError samplePoint b * a.q ∧
      (a.brp < b.brp ∨ (a.brp = b.brp ∧ (a.q < b.q ∨ (a.q = b.q ∧ a.t1 < b.t1)))))

/-- Byte `i` of the packet in RXW. -/
def packetByte (s : State) (i : Nat) : Byte := s.mem.read (Buffer.rxw.base + i)

/-- The packet's variant, byte 10 bit 1 (30_encoding.md R91). -/
def packetFd (s : State) : Bool := (packetByte s 10).getLsbD 1

/-- The packet's length code, byte 8 (30_encoding.md R89). -/
def packetDlc (s : State) : Nat := (packetByte s 8).toNat

/-- The data area's length that the packet's variant and code give (30_encoding.md R93). -/
def packetArea (s : State) : Nat := if packetFd s then dlc2len (packetDlc s) else 8

/-- All four checks of 42_frame_decode.md R152 pass. -/
abbrev PacketAccepted (s : State) : Prop :=
  12 ≤ s.regs.rxwLen.toNat ∧ s.regs.rxwLen.toNat ≤ 80 ∧
    packetDlc s ≤ (if packetFd s then 15 else 8) ∧
    s.regs.rxwLen.toNat = 12 + packetArea s + (if s.regs.cfgHwTs then 4 else 0)

/-- A TX frame FENC accepts (41_frame_encode.md R133, R134). -/
abbrev FrameAccepted (s : State) : Prop := s.regs.txLen.toNat ≤ (if s.regs.txFlags.fd then 64 else 8)

/-- A TX frame with a canonical length: the premise of the round-trip law (42_frame_decode.md R161). -/
abbrev FrameCanonical (s : State) : Prop :=
  if s.regs.txFlags.fd then s.regs.txLen.toNat ∈ Config.fdLengths else s.regs.txLen.toNat ≤ 8

/-- The four byte registers from `a` on hold `LE32(v)` (00_scope.md section 5, 20_memory.md R60). -/
abbrev HoldsLe32 (m : Memory) (a : Nat) (v : Word) : Prop :=
  m.read a = v.extractLsb' 0 8 ∧ m.read (a + 1) = v.extractLsb' 8 8 ∧
    m.read (a + 2) = v.extractLsb' 16 8 ∧ m.read (a + 3) = v.extractLsb' 24 8

/-- The code of the TX frame's length (41_frame_encode.md R133, R134). -/
def txDlc (s : State) : Nat := if s.regs.txFlags.fd then len2dlc s.regs.txLen.toNat else s.regs.txLen.toNat

/-- The data area's length of the TX frame (41_frame_encode.md R133, R134). -/
def txArea (s : State) : Nat := if s.regs.txFlags.fd then dlc2len (txDlc s) else 8

/-- The flags byte of the TX frame: `0x02 + 0x04*brs + 0x08*esi`, or 0 (41_frame_encode.md R136). -/
def txFlagsByte (s : State) : Byte :=
  if s.regs.txFlags.fd then
    0x02#8 + (if s.regs.txFlags.brs then 0x04#8 else 0#8) + (if s.regs.txFlags.esi then 0x08#8 else 0#8)
  else 0#8

/-- The wire length of a data area (30_encoding.md R93): 12, the area, and 4 when `CFG.HW_TS = 1`. -/
def wireLength (s : State) (area : Nat) : Nat := 12 + area + (if s.regs.cfgHwTs then 4 else 0)

/-- TXW and TXW_LEN in `t` hold the wire frame of the TX registers in `s` (41_frame_encode.md R135 to R139). -/
abbrev HoldsWireFrame (s t : State) : Prop :=
  HoldsLe32 t.mem 0x180 s.regs.txEchoId ∧ HoldsLe32 t.mem 0x184 s.regs.txCanId ∧
    (t.mem.read 0x188).toNat = txDlc s ∧ t.mem.read 0x189 = s.regs.txChannel ∧
    t.mem.read 0x18A = txFlagsByte s ∧ t.mem.read 0x18B = 0#8 ∧
    (∀ i < txArea s, t.mem.read (0x18C + i) = if i < s.regs.txLen.toNat then s.mem.read (0x100 + i) else 0#8) ∧
    (s.regs.cfgHwTs = true → HoldsLe32 t.mem (0x18C + txArea s) s.regs.txTs) ∧
    (∀ i < 80, wireLength s (txArea s) ≤ i → t.mem.read (0x180 + i) = 0#8) ∧
    t.regs.txwLen.toNat = wireLength s (txArea s)

/-- The RX registers and RX_DATA in `t` hold the Frame of the packet in `s` (42_frame_decode.md R153 to R156). -/
abbrev HoldsDecodedFrame (s t : State) : Prop :=
  HoldsLe32 s.mem 0x200 t.regs.rxEchoId ∧ HoldsLe32 s.mem 0x204 t.regs.rxCanId ∧
    t.regs.rxChannel = packetByte s 9 ∧
    t.regs.rxFlags.byte = (if packetFd s then packetByte s 10 &&& 0x0E#8 else 0#8) ∧
    t.regs.rxLen.toNat = (if packetFd s then dlc2len (packetDlc s) else packetDlc s) ∧
    (∀ i < 64, t.mem.read (0x280 + i) = if i < t.regs.rxLen.toNat then packetByte s (12 + i) else 0#8) ∧
    (s.regs.cfgHwTs = true → HoldsLe32 s.mem (0x20C + packetArea s) t.regs.rxTs) ∧
    (s.regs.cfgHwTs = false → t.regs.rxTs = 0#32)

/-- The two packets agree on everything FDEC looks at: the lengths, CFG.HW_TS, and every byte before RXW_LEN but the
reserved byte 11, the unused bits of byte 10 and the pad bytes of a classic data area (42_frame_decode.md R150, R159). -/
abbrev PacketsAgree (s s' : State) : Prop :=
  s.regs.cfgHwTs = s'.regs.cfgHwTs ∧ s.regs.rxwLen = s'.regs.rxwLen ∧
    (∀ i < s.regs.rxwLen.toNat, i ≠ 10 → i ≠ 11 → ¬(packetFd s = false ∧ 12 + packetDlc s ≤ i ∧ i < 20) →
      packetByte s i = packetByte s' i) ∧
    (10 < s.regs.rxwLen.toNat → packetFd s = packetFd s') ∧
    (10 < s.regs.rxwLen.toNat → packetFd s = true → packetByte s 10 &&& 0x0E#8 = packetByte s' 10 &&& 0x0E#8)

/-- FENC, COPYW and FDEC as the host's words (42_frame_decode.md R161), `t` being the state FENC alone leads to, from
which COPYW takes the values it carries (log 16). -/
def loopBackWords (t : State) : List TxnWord := asmCmd 2#32 :: (asmCopyw t ++ [asmCmd 3#32])

/-- The register sets that at most one thread uses each (20_memory.md R71, log 15). -/
inductive ThreadSet where
  | transmit
  | receive
  | timing
  deriving DecidableEq, Repr

/-- The thread set of a register (20_memory.md R71); CMD, CFG and FAULT are in none. -/
def regThread : Reg → Option ThreadSet
  | .cmd => none
  | .cfg => none
  | .fault => none
  | .tStatus => some .timing
  | .tBitrate => some .timing
  | .tClockHz => some .timing
  | .tSamplePoint => some .timing
  | .lBrpMax => some .timing
  | .lSegMin => some .timing
  | .lSegMax => some .timing
  | .lSjwMax => some .timing
  | .lSjwPolicy => some .timing
  | .btPropSeg => some .timing
  | .btPhaseSeg1 => some .timing
  | .btPhaseSeg2 => some .timing
  | .btSjw => some .timing
  | .btBrp => some .timing
  | .btTq => some .timing
  | .eStatus => some .transmit
  | .txEchoId => some .transmit
  | .txCanId => some .transmit
  | .txChannel => some .transmit
  | .txFlags => some .transmit
  | .txLen => some .transmit
  | .txTs => some .transmit
  | .txwLen => some .transmit
  | .element .txData _ => some .transmit
  | .element .txw _ => some .transmit
  | .dStatus => some .receive
  | .rxEchoId => some .receive
  | .rxCanId => some .receive
  | .rxChannel => some .receive
  | .rxFlags => some .receive
  | .rxLen => some .receive
  | .rxTs => some .receive
  | .rxwLen => some .receive
  | .element .rxw _ => some .receive
  | .element .rxData _ => some .receive

/-- The thread set an instruction uses, when it uses one and nothing else (20_memory.md R71). -/
def instrThread : Instr → Option ThreadSet
  | .nop => none
  | .tcalc => some .timing
  | .fenc => some .transmit
  | .fdec => some .receive
  | .clr => none
  | .illegal _ => none
  | .wr addr _ => (regAt addr).bind regThread
  | .rd addr _ => (regAt addr).bind regThread

end Sys2Proof.Safety
end

