-- ==== Sys2Proof/Certificates/Slice0/Obligations.lean ====
section
/-! DEFINITION. The statements for the provers. Each docstring names the rule of spec/ the statement formalises. -/

open Sys2Proof Sys2Proof.Machine Sys2Proof.Safety

/-! ### Reset, the port and the step -/

/-- 70_reset_and_hazards.md R260: after reset every register holds 0. -/
def Obligations.EveryRegisterReadsZeroAfterReset : Prop :=
  ∀ (a : RegNum) (r : Reg), regAt a = some r → readReg r State.reset = 0#32

/-- 70_reset_and_hazards.md R262: every command is defined in the reset state; there TCALC fails with `UnsupportedBitrate`, FENC succeeds with the
20-byte all-zero wire frame, and FDEC fails with `InvalidFrame`. -/
def Obligations.CommandsInTheResetState : Prop :=
  (∀ i : Instr, ∃ t, exec i State.reset = .next t) ∧
  exec .tcalc State.reset =
      .next { State.reset with regs := { Regs.reset with tStatus := ⟨false, true, 1#4⟩ } } ∧
    exec .fenc State.reset =
      .next { State.reset with regs := { Regs.reset with txwLen := 20#8, eStatus := ⟨true, false, 0#4⟩ } } ∧
    exec .fdec State.reset =
      .next { State.reset with regs := { Regs.reset with dStatus := ⟨false, true, false, false, 2#4⟩ } }

/-- A step with a transaction on the port performs exactly the decoded instruction, the transaction taken off the
port (20_memory.md sections 3 and 6; the port queue is the model's, log 1). -/
def Obligations.StepPerformsTheDecodedTransaction : Prop :=
  ∀ (s : State) (w : TxnWord) (rest : List PortEvent) (i : Instr),
    s.pending = .transaction w :: rest → decodeWord w = i →
      i.wellFormed = true ∧ step s = exec i { s with pending := rest }

/-- The reset input does what CLR does (70_reset_and_hazards.md section 1; that the input waits in the port queue is
the model's, log 4). -/
def Obligations.ResetInputActsAsClr : Prop :=
  ∀ (s : State) (rest : List PortEvent), s.pending = .reset :: rest →
    step s = exec .clr { s with pending := rest }

/-- With nothing on its port PE stays as it is: the model's choice, log 2. -/
def Obligations.NothingHappensWithoutATransaction : Prop :=
  ∀ s : State, s.pending = [] → step s = .next s

/-- Every transaction word has a successor in every state, a read returns exactly one value and a write none
(70_reset_and_hazards.md section 5; 30_encoding.md section 1). -/
def Obligations.EveryTransactionCompletes : Prop :=
  ∀ (s : State) (w : TxnWord) (rest : List PortEvent), s.pending = .transaction w :: rest →
    ∃ t, step s = .next t ∧ t.pending = rest ∧
      ((wrField w = 1#1 ∧ t.returned = s.returned) ∨ (wrField w = 0#1 ∧ ∃ v, t.returned = s.returned ++ [v]))

/-! ### Encoding -/

/-- Words written out by the spec decode to the instructions it says they are (30_encoding.md sections 1 and 3,
95_test_vectors.md V9). -/
def Obligations.SpecWordsDecode : Prop :=
  decodeWord 0x100000000000#45 = .nop ∧ decodeWord 0x100000000001#45 = .tcalc ∧
    decodeWord 0x100000000002#45 = .fenc ∧ decodeWord 0x100000000003#45 = .fdec ∧
    decodeWord 0x100000000004#45 = .clr ∧ decodeWord 0x100000000005#45 = .illegal 0x00000005#32 ∧
    decodeWord 0x100000000101#45 = .illegal 0x00000101#32 ∧
    decodeWord 0x10100007A120#45 = .wr 0x010#12 500000#32 ∧
    decodeWord 0x000200000000#45 = .rd 0x002#12 0#32 ∧ decodeWord 0x0FFF12345678#45 = .rd 0xFFF#12 0x12345678#32

/-- Decoding an encoded well-formed instruction gives it back, every operand at every value (30_encoding.md sections
1 to 3). -/
def Obligations.DecodeInvertsEncode : Prop :=
  ∀ i : Instr, i.wellFormed = true → decodeWord (encode i) = i

/-- Every transaction word is the encoding of exactly the well-formed instruction it decodes to (30_encoding.md
sections 1 to 3). For a read with DATA other than 0 this is the model's choice, log 12: the constructor `rd` keeps the
DATA field that a read ignores, where the spec's own assembler emits DATA = 0. -/
def Obligations.EncodeInvertsDecode : Prop :=
  ∀ w : TxnWord, (decodeWord w).wellFormed = true ∧ encode (decodeWord w) = w

/-- 30_encoding.md R83: the decoder takes the first row of the instruction list whose `(word AND mask) = match`. -/
def Obligations.DecoderTakesTheFirstMatchingRow : Prop :=
  ∀ w : TxnWord,
    (opcodeTable.find? fun r => r.matchesWord w).map (fun r => r.mnemonic) = some (decodeWord w).mnemonic

/-! ### The register space -/

/-- Every number of the map names the register the map gives it, by literal number: the scalar registers, then element
`i` of each buffer for `i` below the buffer's size; exactly the listed numbers are unassigned; and no number names
anything else (20_memory.md section 4, 10_state.md section 2). -/
def Obligations.AddressMap : Prop :=
  (∀ p ∈ ([(0x000#12, .cmd), (0x001#12, .cfg), (0x002#12, .tStatus), (0x003#12, .eStatus), (0x004#12, .dStatus),
    (0x005#12, .fault), (0x010#12, .tBitrate), (0x011#12, .tClockHz), (0x012#12, .tSamplePoint), (0x014#12, .lBrpMax),
    (0x015#12, .lSegMin), (0x016#12, .lSegMax), (0x017#12, .lSjwMax), (0x018#12, .lSjwPolicy), (0x020#12, .btPropSeg),
    (0x021#12, .btPhaseSeg1), (0x022#12, .btPhaseSeg2), (0x023#12, .btSjw), (0x024#12, .btBrp), (0x025#12, .btTq),
    (0x030#12, .txEchoId), (0x031#12, .txCanId), (0x032#12, .txChannel), (0x033#12, .txFlags), (0x034#12, .txLen),
    (0x035#12, .txTs), (0x036#12, .txwLen), (0x040#12, .rxEchoId), (0x041#12, .rxCanId), (0x042#12, .rxChannel),
    (0x043#12, .rxFlags), (0x044#12, .rxLen), (0x045#12, .rxTs), (0x046#12, .rxwLen)] : List (RegNum × Reg)),
    regAt p.1 = some p.2) ∧
  (∀ i < 64, regAt (BitVec.ofNat 12 (0x100 + i)) = some (.element .txData i)) ∧
  (∀ i < 80, regAt (BitVec.ofNat 12 (0x180 + i)) = some (.element .txw i)) ∧
  (∀ i < 80, regAt (BitVec.ofNat 12 (0x200 + i)) = some (.element .rxw i)) ∧
  (∀ i < 64, regAt (BitVec.ofNat 12 (0x280 + i)) = some (.element .rxData i)) ∧
  (∀ a : RegNum, regAt a = none ↔
    (0x006 ≤ a.toNat ∧ a.toNat ≤ 0x00F) ∨ a.toNat = 0x013 ∨ (0x019 ≤ a.toNat ∧ a.toNat ≤ 0x01F) ∨
      (0x026 ≤ a.toNat ∧ a.toNat ≤ 0x02F) ∨ (0x037 ≤ a.toNat ∧ a.toNat ≤ 0x03F) ∨
      (0x047 ≤ a.toNat ∧ a.toNat ≤ 0x0FF) ∨ (0x140 ≤ a.toNat ∧ a.toNat ≤ 0x17F) ∨
      (0x1D0 ≤ a.toNat ∧ a.toNat ≤ 0x1FF) ∨ (0x250 ≤ a.toNat ∧ a.toNat ≤ 0x27F) ∨ 0x2C0 ≤ a.toNat) ∧
    ∀ (a : RegNum) (r : Reg), regAt a = some r →
      r.number = a.toNat ∧ ∀ (b : Buffer) (i : Nat), r = .element b i → i < b.size

/-- Bits a register does not implement read as 0 (10_state.md section 2). -/
def Obligations.UnimplementedBitsReadZero : Prop :=
  ∀ (r : Reg) (s : State), readReg r s &&& ~~~r.implemented = 0#32

/-- 43_host_access.md R170: a read of an assigned number returns its register's value (0 for CMD) and changes nothing;
a read of an unassigned number returns 0 and sets FAULT.BADACC with CODE 4; DATA is ignored. -/
def Obligations.ReadTransaction : Prop :=
  ∀ (a : RegNum) (d : Word), decodeWord (txnWord 0#1 a d) = .rd a d ∧
    ∀ s : State,
      (∀ r, regAt a = some r →
        exec (.rd a d) s = .next { s with returned := s.returned ++ [if r = .cmd then 0#32 else readReg r s] }) ∧
      (regAt a = none →
        exec (.rd a d) s = .next { s with
          returned := s.returned ++ [0#32]
          regs := { s.regs with fault := ⟨s.regs.fault.illcmd, true, 4#4⟩ } })

/-- 43_host_access.md R171: a write of an RW register keeps the implemented bits of the value and changes that one
register and nothing else; a write of an RO or unassigned number stores nothing and sets FAULT.BADACC with CODE 4.
The premise on memory is the invariant `MemoryStaysLegal` states. -/
def Obligations.WriteTransaction : Prop :=
  ∀ (a : RegNum) (d : Word), a ≠ 0#12 → decodeWord (txnWord 1#1 a d) = .wr a d ∧
    ∀ s : State,
      (∀ r, regAt a = some r → r.access = .rw → s.mem.wf = true →
        ∃ t, exec (.wr a d) s = .next t ∧ readReg r t = d &&& r.implemented ∧
          (∀ a' r', regAt a' = some r' → a' ≠ a → readReg r' t = readReg r' s) ∧
          (∀ n, n ≠ a.toNat → t.mem.read n = s.mem.read n) ∧
          t.pending = s.pending ∧ t.returned = s.returned) ∧
      ((∀ r, regAt a = some r → r.access ≠ .rw) →
        exec (.wr a d) s =
          .next { s with regs := { s.regs with fault := ⟨s.regs.fault.illcmd, true, 4#4⟩ } })

/-- The lines TSET and LIMITS, performed through the port, load the eight timing operands and change nothing else
(30_encoding.md section 5; the lines as lists of words are log 16). -/
def Obligations.TimingLinesLoadTheOperands : Prop :=
  ∀ (s : State) (b f sp brpMax segMin segMax sjwMax policy : Word),
    Sys2Proof.core.run 8
        { s with pending := onPort (asmTset b f sp ++ asmLimits brpMax segMin segMax sjwMax policy) } =
      .next { s with
        pending := []
        regs := { s.regs with
          tBitrate := b, tClockHz := f, tSamplePoint := sp, lBrpMax := brpMax, lSegMin := segMin,
          lSegMax := segMax, lSjwMax := sjwMax, lSjwMaxLegal := policy.getLsbD 0 } }

/-- The line TXBYTES, performed through the port, loads TX_DATA and TX_LEN and changes nothing else (30_encoding.md
section 5; the line as a list of words is log 16). -/
def Obligations.TxbytesLoadsTheData : Prop :=
  ∀ (s : State) (bs : List Byte), s.mem.wf = true → bs.length ≤ 64 →
    ∃ t, Sys2Proof.core.run (bs.length + 1) { s with pending := onPort (asmTxbytes bs) } = .next t ∧
      (∀ i < bs.length, t.mem.read (0x100 + i) = byteAt bs i) ∧
      (∀ a, a < 0x100 ∨ 0x100 + bs.length ≤ a → t.mem.read a = s.mem.read a) ∧
      t.regs = { s.regs with txLen := BitVec.ofNat 8 bs.length } ∧
      t.pending = [] ∧ t.returned = s.returned

/-! ### Housekeeping commands -/

/-- 43_host_access.md R172: NOP changes no state at all. -/
def Obligations.NopChangesNothing : Prop :=
  decodeWord 0x100000000000#45 = .nop ∧ ∀ s : State, exec .nop s = .next s

/-- CLR leaves the reset state but for the host port (43_host_access.md; 70_reset_and_hazards.md section 1). That
`pending` and `returned` stay as they are is the model's choice, log 5: the spec does not say it. -/
def Obligations.ClrResetsEveryRegister : Prop :=
  decodeWord 0x100000000004#45 = .clr ∧
    ∀ s : State, exec .clr s = .next { State.reset with pending := s.pending, returned := s.returned }

/-- 43_host_access.md R176: a command word that R174 rejects sets FAULT.ILLCMD with CODE 3, and nothing else changes. -/
def Obligations.IllegalCommandSetsOnlyFault : Prop :=
  ∀ v : Word, (v.toNat / 256 ≠ 0 ∨ v.toNat % 256 > 4) →
    decodeWord (commandWord v) = .illegal v ∧
      ∀ s : State, exec (.illegal v) s =
        .next { s with regs := { s.regs with fault := ⟨true, s.regs.fault.badacc, 3#4⟩ } }

/-! ### Unit T -/

/-- The search lists exactly the triples that 40_timing.md R105 calls candidates, each prescaler and split bounded as
sections 2 and 6 of that file bound them. -/
def Obligations.SearchListsExactlyTheCandidates : Prop :=
  ∀ (o : TimingOperands) (c : Candidate), 1 ≤ o.lo → (c ∈ candidates o ↔ IsCandidate o c)

/-- 40_timing.md R115: for `lo ≤ hi` a quanta count has a split exactly when `1 + 3*lo ≤ q ≤ 1 + lo + 2*hi`, for
`lo > hi` none has one, and the legal `T1` are those from `max(2*lo, q − 1 − hi)` to `min(lo + hi, q − 1 − lo)`. -/
def Obligations.QuantaCountsWithASplit : Prop :=
  ∀ (o : TimingOperands) (brp q : Nat), 1 ≤ o.lo →
    (o.lo ≤ o.hi → (splits o brp q ≠ [] ↔ 1 + 3 * o.lo ≤ q ∧ q ≤ 1 + o.lo + 2 * o.hi)) ∧
      (o.hi < o.lo → splits o brp q = []) ∧
      ∀ t1 : Nat, (∃ c ∈ splits o brp q, c.t1 = t1) ↔
        max (2 * o.lo : Int) ((q : Int) - 1 - o.hi) ≤ t1 ∧ (t1 : Int) ≤ min ((o.lo : Int) + o.hi) ((q : Int) - 1 - o.lo)

/-- 40_timing.md R107 and R109 to R112: when there is a candidate TCALC answers a next state with the candidate least
in the order of R107, its five fields and quanta in BT_* and T_STATUS as OK, and nothing else changed. -/
def Obligations.TcalcWritesTheLeastCandidate : Prop :=
  ∀ (s : State) (c₀ : Candidate), IsCandidate (timingOperands s) c₀ →
    ∃ c t, IsCandidate (timingOperands s) c ∧
      (∀ c', IsCandidate (timingOperands s) c' → c' ≠ c → chosenBefore s.regs.tSamplePoint.toNat c c') ∧
      exec .tcalc s = .next t ∧
      t.regs.btPropSeg.toNat = max 1 s.regs.lSegMin.toNat ∧
      t.regs.btPhaseSeg1.toNat = c.t1 - max 1 s.regs.lSegMin.toNat ∧
      t.regs.btPhaseSeg2.toNat = c.ps2 ∧
      t.regs.btSjw.toNat =
        (if s.regs.lSjwMaxLegal then
          min (min t.regs.btPhaseSeg1.toNat t.regs.btPhaseSeg2.toNat) (max 1 s.regs.lSjwMax.toNat)
         else min 1 t.regs.btPhaseSeg2.toNat) ∧
      1 ≤ t.regs.btSjw.toNat ∧ t.regs.btSjw.toNat ≤ min t.regs.btPhaseSeg1.toNat t.regs.btPhaseSeg2.toNat ∧
      t.regs.btBrp.toNat = c.brp ∧ t.regs.btTq.toNat = c.q ∧
      c.q = t.regs.btPropSeg.toNat + t.regs.btPhaseSeg1.toNat + t.regs.btPhaseSeg2.toNat + 1 ∧
      t.regs.tStatus = ⟨true, false, 0#4⟩ ∧
      t = { s with regs := { s.regs with
        btPropSeg := t.regs.btPropSeg, btPhaseSeg1 := t.regs.btPhaseSeg1, btPhaseSeg2 := t.regs.btPhaseSeg2,
        btSjw := t.regs.btSjw, btBrp := t.regs.btBrp, btTq := t.regs.btTq, tStatus := t.regs.tStatus } }

/-- 40_timing.md R113: without a candidate TCALC sets T_STATUS to OK=0, ERR=1, CODE=1 and changes nothing else. -/
def Obligations.TcalcWithoutACandidateChangesOnlyStatus : Prop :=
  ∀ s : State, (¬∃ c, IsCandidate (timingOperands s) c) →
    exec .tcalc s = .next { s with regs := { s.regs with tStatus := ⟨false, true, 1#4⟩ } }

/-- 10_state.md R33: what holds of BT_* after a successful TCALC. -/
def Obligations.TcalcResultIsExact : Prop :=
  ∀ s t : State, exec .tcalc s = .next t → t.regs.tStatus.ok = true →
    t.regs.btTq.toNat = t.regs.btPropSeg.toNat + t.regs.btPhaseSeg1.toNat + t.regs.btPhaseSeg2.toNat + 1 ∧
      s.regs.tClockHz.toNat = t.regs.btBrp.toNat * s.regs.tBitrate.toNat * t.regs.btTq.toNat ∧
      (∀ f ∈ [t.regs.btPropSeg, t.regs.btPhaseSeg1, t.regs.btPhaseSeg2],
        max 1 s.regs.lSegMin.toNat ≤ f.toNat ∧ f.toNat ≤ s.regs.lSegMax.toNat) ∧
      (1 ≤ t.regs.btBrp.toNat ∧ t.regs.btBrp.toNat ≤ s.regs.lBrpMax.toNat) ∧
      1 ≤ t.regs.btSjw.toNat ∧ t.regs.btSjw.toNat ≤ min t.regs.btPhaseSeg1.toNat t.regs.btPhaseSeg2.toNat

/-- The degenerate operands all end in `UnsupportedBitrate` (40_timing.md section 6). -/
def Obligations.TcalcRejectsDegenerateOperands : Prop :=
  ∀ s : State,
    (s.regs.tBitrate = 0#32 ∨ s.regs.tClockHz = 0#32 ∨ s.regs.lBrpMax = 0#32 ∨ s.regs.lSegMax = 0#32 ∨
      s.regs.lSegMax.toNat < s.regs.lSegMin.toNat ∨ s.regs.tClockHz.toNat < s.regs.tBitrate.toNat ∨
      s.regs.tClockHz.toNat % s.regs.tBitrate.toNat ≠ 0) →
    exec .tcalc s = .next { s with regs := { s.regs with tStatus := ⟨false, true, 1#4⟩ } }

/-- TCALC's result is a function of its eight operand registers (40_timing.md section 1). -/
def Obligations.TcalcReadsOnlyItsOperands : Prop :=
  ∀ s s' t t' : State,
    s.regs.tBitrate = s'.regs.tBitrate → s.regs.tClockHz = s'.regs.tClockHz →
    s.regs.tSamplePoint = s'.regs.tSamplePoint → s.regs.lBrpMax = s'.regs.lBrpMax →
    s.regs.lSegMin = s'.regs.lSegMin → s.regs.lSegMax = s'.regs.lSegMax → s.regs.lSjwMax = s'.regs.lSjwMax →
    s.regs.lSjwMaxLegal = s'.regs.lSjwMaxLegal →
    exec .tcalc s = .next t → exec .tcalc s' = .next t' →
      t.regs.tStatus = t'.regs.tStatus ∧
        (t.regs.tStatus.ok = true →
          t.regs.btPropSeg = t'.regs.btPropSeg ∧ t.regs.btPhaseSeg1 = t'.regs.btPhaseSeg1 ∧
            t.regs.btPhaseSeg2 = t'.regs.btPhaseSeg2 ∧ t.regs.btSjw = t'.regs.btSjw ∧
            t.regs.btBrp = t'.regs.btBrp ∧ t.regs.btTq = t'.regs.btTq)

/-! ### Units E and D -/

/-- 30_encoding.md R96: `len2dlc(n)` is the least code whose length is at least `n`, with equality exactly at the
canonical lengths, and it inverts `dlc2len`; with the table of R96. -/
def Obligations.LengthCodes : Prop :=
  (∀ n ≤ 64, len2dlc n ≤ 15 ∧ n ≤ dlc2len (len2dlc n) ∧ (∀ c < len2dlc n, dlc2len c < n) ∧
      (dlc2len (len2dlc n) = n ↔ n ∈ Config.fdLengths)) ∧
    (List.range 16).map dlc2len = [0, 1, 2, 3, 4, 5, 6, 7, 8, 12, 16, 20, 24, 32, 48, 64] ∧
    (∀ c ≤ 15, len2dlc (dlc2len c) = c) ∧
    ∀ n ≤ 64, len2dlc n =
      if n ≤ 8 then n else if n ≤ 12 then 9 else if n ≤ 16 then 10 else if n ≤ 20 then 11
      else if n ≤ 24 then 12 else if n ≤ 32 then 13 else if n ≤ 48 then 14 else 15

/-- 41_frame_encode.md R135 to R139: FENC of an acceptable frame answers a next state whose TXW and TXW_LEN are its
wire frame, with E_STATUS OK, and only TXW, TXW_LEN and E_STATUS written. -/
def Obligations.FencWritesTheWireFrame : Prop :=
  ∀ s : State, s.mem.wf = true → FrameAccepted s →
    ∃ t, exec .fenc s = .next t ∧ HoldsWireFrame s t ∧ t.regs.eStatus = ⟨true, false, 0#4⟩ ∧
      t.regs = { s.regs with txwLen := t.regs.txwLen, eStatus := t.regs.eStatus } ∧
      (∀ a, a < 0x180 ∨ 0x1CF < a → t.mem.read a = s.mem.read a) ∧
      t.pending = s.pending ∧ t.returned = s.returned

/-- 41_frame_encode.md R140: FENC of a classic frame longer than 8 or an FD frame longer than 64 bytes sets E_STATUS
to OK=0, ERR=1, CODE=2 and changes nothing else. -/
def Obligations.FencRefusalChangesOnlyStatus : Prop :=
  ∀ s : State,
    ((s.regs.txFlags.fd = false ∧ 8 < s.regs.txLen.toNat) ∨ (s.regs.txFlags.fd = true ∧ 64 < s.regs.txLen.toNat)) →
      exec .fenc s = .next { s with regs := { s.regs with eStatus := ⟨false, true, 2#4⟩ } }

/-- FENC reads the TX registers, CFG.HW_TS, TX_TS only when HW_TS is 1 and TX_DATA only below TX_LEN
(41_frame_encode.md, R130's operands; 70_reset_and_hazards.md section 3). -/
def Obligations.FencReadsOnlyItsOperands : Prop :=
  ∀ s s' t t' : State, s.mem.wf = true → s'.mem.wf = true →
    s.regs.cfgHwTs = s'.regs.cfgHwTs → s.regs.txEchoId = s'.regs.txEchoId → s.regs.txCanId = s'.regs.txCanId →
    s.regs.txChannel = s'.regs.txChannel → s.regs.txFlags = s'.regs.txFlags → s.regs.txLen = s'.regs.txLen →
    (s.regs.cfgHwTs = true → s.regs.txTs = s'.regs.txTs) →
    (∀ i < s.regs.txLen.toNat, s.mem.read (0x100 + i) = s'.mem.read (0x100 + i)) →
    exec .fenc s = .next t → exec .fenc s' = .next t' →
      t.regs.eStatus = t'.regs.eStatus ∧
        (t.regs.eStatus.ok = true →
          t.regs.txwLen = t'.regs.txwLen ∧ ∀ i < 80, t.mem.read (0x180 + i) = t'.mem.read (0x180 + i))

/-- 42_frame_decode.md R153 to R157: FDEC of a packet that passes the four checks answers a next state whose RX
registers and RX_DATA are its Frame, with D_STATUS OK, RX and TS_VALID, and nothing else written. -/
def Obligations.FdecWritesTheFrame : Prop :=
  ∀ s : State, s.mem.wf = true → PacketAccepted s →
    ∃ t, exec .fdec s = .next t ∧ HoldsDecodedFrame s t ∧
      t.regs.dStatus = ⟨true, false, decide (t.regs.rxEchoId = 0xFFFFFFFF#32), s.regs.cfgHwTs, 0#4⟩ ∧
      t.regs = { s.regs with
        rxEchoId := t.regs.rxEchoId, rxCanId := t.regs.rxCanId, rxChannel := t.regs.rxChannel,
        rxFlags := t.regs.rxFlags, rxLen := t.regs.rxLen, rxTs := t.regs.rxTs, dStatus := t.regs.dStatus } ∧
      (∀ a, a < 0x280 ∨ 0x2BF < a → t.mem.read a = s.mem.read a) ∧
      t.pending = s.pending ∧ t.returned = s.returned

/-- 42_frame_decode.md R158: a packet that fails one of the four checks sets D_STATUS to OK=0, ERR=1, RX=0,
TS_VALID=0, CODE=2 and changes nothing else. -/
def Obligations.FdecRefusalChangesOnlyStatus : Prop :=
  ∀ s : State, ¬PacketAccepted s →
    exec .fdec s = .next { s with regs := { s.regs with dStatus := ⟨false, true, false, false, 2#4⟩ } }

/-- FDEC ignores the reserved byte, the unused flag bits, a classic frame's pad and every byte at or past RXW_LEN
(42_frame_decode.md, R150's operands and R159). -/
def Obligations.FdecIgnoresReservedAndPadBytes : Prop :=
  ∀ s s' t t' : State, s.mem.wf = true → s'.mem.wf = true → PacketsAgree s s' →
    exec .fdec s = .next t → exec .fdec s' = .next t' →
      t.regs.dStatus = t'.regs.dStatus ∧
        (t.regs.dStatus.ok = true →
          t.regs.rxEchoId = t'.regs.rxEchoId ∧ t.regs.rxCanId = t'.regs.rxCanId ∧
            t.regs.rxChannel = t'.regs.rxChannel ∧ t.regs.rxFlags = t'.regs.rxFlags ∧
            t.regs.rxLen = t'.regs.rxLen ∧ t.regs.rxTs = t'.regs.rxTs ∧
            ∀ i < 64, t.mem.read (0x280 + i) = t'.mem.read (0x280 + i))

/-- Issuing TCALC, FENC or FDEC twice in a row leaves the same state as issuing it once (20_memory.md section 3). -/
def Obligations.UnitCommandsAreIdempotent : Prop :=
  ∀ (i : Instr) (s t : State), i ∈ [Instr.tcalc, .fenc, .fdec] → s.mem.wf = true →
    exec i s = .next t → exec i t = .next t

/-- The codec as two functions: decoding the encoding of a frame with a canonical length gives the frame back
(42_frame_decode.md, the law of section R161). -/
def Obligations.CodecRoundTrip : Prop :=
  ∀ (tsOn : Bool) (f : Frame),
    (if f.flags.fd then f.len.toNat ∈ Config.fdLengths else f.len.toNat ≤ 8) →
      ∃ w g, encodeFrame tsOn f = some w ∧ decodeFrame tsOn w.length (zeroPadded 80 w) = some g ∧
        g.echoId = f.echoId ∧ g.canId = f.canId ∧ g.channel = f.channel ∧
        g.flags = (if f.flags.fd then f.flags else .classic) ∧ g.len = f.len ∧
        (∀ i < 64, byteAt g.data i = if i < f.len.toNat then byteAt f.data i else 0#8) ∧
        g.ts = if tsOn then f.ts else 0#32

/-- FENC, COPYW and FDEC, all three performed through the port from one state, give the TX frame with a canonical length
back in the RX registers (42_frame_decode.md, the law of section R161). `t₁` is the state after FENC alone, in which the
host learns what COPYW carries: that COPYW's words are taken from there is the model's choice, log 16, and the last
clause says that its reads return exactly the values its writes carry. -/
def Obligations.RoundTripThroughThePort : Prop :=
  ∀ s : State, s.mem.wf = true → FrameCanonical s →
    ∃ t₁ t₂, Sys2Proof.core.run 1 { s with pending := onPort [asmCmd 2#32] } = .next t₁ ∧
      Sys2Proof.core.run (loopBackWords t₁).length { s with pending := onPort (loopBackWords t₁) } = .next t₂ ∧
      t₂.regs.eStatus = ⟨true, false, 0#4⟩ ∧
      t₂.regs.dStatus.ok = true ∧ t₂.regs.dStatus.err = false ∧
      t₂.regs.rxEchoId = s.regs.txEchoId ∧ t₂.regs.rxCanId = s.regs.txCanId ∧
      t₂.regs.rxChannel = s.regs.txChannel ∧ t₂.regs.rxLen = s.regs.txLen ∧
      (∀ i < 64, t₂.mem.read (0x280 + i) = if i < s.regs.txLen.toNat then s.mem.read (0x100 + i) else 0#8) ∧
      t₂.regs.rxFlags = (if s.regs.txFlags.fd then s.regs.txFlags else ⟨false, false, false⟩) ∧
      t₂.regs.rxTs = (if s.regs.cfgHwTs then s.regs.txTs else 0#32) ∧
      t₂.regs.dStatus.tsValid = s.regs.cfgHwTs ∧ t₂.pending = [] ∧
      t₂.returned = s.returned ++ byteWord t₁.regs.txwLen ::
        (t₁.mem.readBytes 0x180 t₁.regs.txwLen.toNat).map byteWord

/-- For a non-canonical FD length the same sequence through the port gives the rounded-up length, the data bytes and a
zero gap (42_frame_decode.md, the law of section R162). What COPYW carries is the model's choice, log 16. -/
def Obligations.NonCanonicalLengthIsRoundedUp : Prop :=
  ∀ s : State, s.mem.wf = true → s.regs.txFlags.fd = true → 9 ≤ s.regs.txLen.toNat → s.regs.txLen.toNat ≤ 63 →
    s.regs.txLen.toNat ∉ Config.fdLengths →
    ∃ t₁ t₂, Sys2Proof.core.run 1 { s with pending := onPort [asmCmd 2#32] } = .next t₁ ∧
      Sys2Proof.core.run (loopBackWords t₁).length { s with pending := onPort (loopBackWords t₁) } = .next t₂ ∧
      t₂.regs.dStatus.ok = true ∧
      t₂.regs.rxLen.toNat = dlc2len (len2dlc s.regs.txLen.toNat) ∧
      s.regs.txLen.toNat < t₂.regs.rxLen.toNat ∧
      (∀ i < s.regs.txLen.toNat, t₂.mem.read (0x280 + i) = s.mem.read (0x100 + i)) ∧
      ∀ i < t₂.regs.rxLen.toNat, s.regs.txLen.toNat ≤ i → t₂.mem.read (0x280 + i) = 0#8

/-! ### Invariants -/

/-- Every step keeps the byte registers canonical and within the four buffers. -/
def Obligations.MemoryStaysLegal : Prop :=
  ∀ s t : State, MemoryLegal s.mem → step s = .next t → MemoryLegal t.mem

/-- Every step keeps the four status registers at values 10_state.md section 5 allows. -/
def Obligations.StatusStaysLegal : Prop :=
  ∀ s t : State, StatusLegal s.regs → step s = .next t → StatusLegal t.regs

/-- Every step keeps BT_* either all 0 or a sound BitTiming (10_state.md sections 1 and 6). -/
def Obligations.BitTimingStaysSound : Prop :=
  ∀ s t : State, BitTimingLegal s.regs → step s = .next t → BitTimingLegal t.regs

/-- Every step keeps TXW_LEN a wire length (or 0) and TXW zero past it (10_state.md section 7). -/
def Obligations.TxWireStaysLegal : Prop :=
  ∀ s t : State, MemoryLegal s.mem → TxWireLegal s → step s = .next t → TxWireLegal t

/-- Every step keeps the RX registers and RX_DATA a Frame (10_state.md section 7). -/
def Obligations.RxFrameStaysLegal : Prop :=
  ∀ s t : State, MemoryLegal s.mem → RxFrameLegal s → step s = .next t → RxFrameLegal t

/-- The reset state is legal in every sense above. -/
def Obligations.ResetStateIsLegal : Prop :=
  MemoryLegal State.reset.mem ∧ StatusLegal State.reset.regs ∧ BitTimingLegal State.reset.regs ∧
    TxWireLegal State.reset ∧ RxFrameLegal State.reset

/-! ### Rules over every instruction -/

/-- Result and status registers are written only by their unit and CLR (10_state.md sections 5 to 7). -/
def Obligations.ResultsAreWrittenOnlyByTheirUnit : Prop :=
  ∀ (i : Instr) (s t : State), exec i s = .next t → i ≠ .clr →
    (i ≠ .tcalc → t.regs.tStatus = s.regs.tStatus ∧ t.regs.btPropSeg = s.regs.btPropSeg ∧
      t.regs.btPhaseSeg1 = s.regs.btPhaseSeg1 ∧ t.regs.btPhaseSeg2 = s.regs.btPhaseSeg2 ∧
      t.regs.btSjw = s.regs.btSjw ∧ t.regs.btBrp = s.regs.btBrp ∧ t.regs.btTq = s.regs.btTq) ∧
    (i ≠ .fenc → t.regs.eStatus = s.regs.eStatus ∧ t.regs.txwLen = s.regs.txwLen ∧
      ∀ k < 80, t.mem.read (0x180 + k) = s.mem.read (0x180 + k)) ∧
    (i ≠ .fdec → t.regs.dStatus = s.regs.dStatus ∧ t.regs.rxEchoId = s.regs.rxEchoId ∧
      t.regs.rxCanId = s.regs.rxCanId ∧ t.regs.rxChannel = s.regs.rxChannel ∧ t.regs.rxFlags = s.regs.rxFlags ∧
      t.regs.rxLen = s.regs.rxLen ∧ t.regs.rxTs = s.regs.rxTs ∧
      ∀ k < 64, t.mem.read (0x280 + k) = s.mem.read (0x280 + k))

/-- CFG, the timing operands and limits, the TX registers, TX_DATA, RXW and RXW_LEN are written only by the host's WR
and CLR (10_state.md sections 5 to 7). -/
def Obligations.OperandsAreWrittenOnlyByTheHost : Prop :=
  ∀ (i : Instr) (s t : State), exec i s = .next t → i ≠ .clr → (∀ a d, i ≠ .wr a d) →
    t.regs.cfgHwTs = s.regs.cfgHwTs ∧ t.regs.tBitrate = s.regs.tBitrate ∧ t.regs.tClockHz = s.regs.tClockHz ∧
      t.regs.tSamplePoint = s.regs.tSamplePoint ∧ t.regs.lBrpMax = s.regs.lBrpMax ∧
      t.regs.lSegMin = s.regs.lSegMin ∧ t.regs.lSegMax = s.regs.lSegMax ∧ t.regs.lSjwMax = s.regs.lSjwMax ∧
      t.regs.lSjwMaxLegal = s.regs.lSjwMaxLegal ∧
      t.regs.txEchoId = s.regs.txEchoId ∧ t.regs.txCanId = s.regs.txCanId ∧
      t.regs.txChannel = s.regs.txChannel ∧ t.regs.txFlags = s.regs.txFlags ∧ t.regs.txLen = s.regs.txLen ∧
      t.regs.txTs = s.regs.txTs ∧ t.regs.rxwLen = s.regs.rxwLen ∧
      (∀ k < 64, t.mem.read (0x100 + k) = s.mem.read (0x100 + k)) ∧
      ∀ k < 80, t.mem.read (0x200 + k) = s.mem.read (0x200 + k)

/-- FAULT's two flags, once set, stay set through every transaction but CLR (60_exceptions.md section 2). -/
def Obligations.FaultFlagsAreSticky : Prop :=
  ∀ (s t : State) (w : TxnWord) (rest : List PortEvent), s.pending = .transaction w :: rest →
    w ≠ 0x100000000004#45 → step s = .next t →
      (s.regs.fault.illcmd = true → t.regs.fault.illcmd = true) ∧
        (s.regs.fault.badacc = true → t.regs.fault.badacc = true)

/-- FAULT changes only where the host breaks the interface's contract, and then takes that fault's flag and code
(60_exceptions.md sections 1 and 2). CLR is set apart: it clears FAULT. -/
def Obligations.FaultRecordsExactlyTheViolations : Prop :=
  ∀ (i : Instr) (s t : State), i.wellFormed = true → i ≠ .clr → exec i s = .next t →
    (keepsContract i = true → t.regs.fault = s.regs.fault) ∧
      (keepsContract i = false →
        t.regs.fault =
          if ∃ v, i = .illegal v then ⟨true, s.regs.fault.badacc, 3#4⟩ else ⟨s.regs.fault.illcmd, true, 4#4⟩)

/-- A run of transactions and resets that starts with FAULT 0 and ends with FAULT non-zero contained an illegal command
or a refused access with no CLR and no reset after it (70_reset_and_hazards.md section 5; that resets wait on the port
among the transactions is the model's choice, log 4). -/
def Obligations.FaultyRunContainsAViolation : Prop :=
  ∀ s t : State, s.regs.fault.word = 0#32 → Sys2Proof.core.run s.pending.length s = .next t →
    t.regs.fault.word ≠ 0#32 →
      ∃ before w after, s.pending = before ++ .transaction w :: after ∧ keepsContract (decodeWord w) = false ∧
        ∀ e ∈ after, e ≠ .reset ∧ e ≠ .transaction 0x100000000004#45

/-- Transactions of two threads that use different register sets may be performed in either order: the registers end
alike, and each thread's reads return the same values (20_memory.md section 6). -/
def Obligations.ThreadsOfDifferentSetsCommute : Prop :=
  ∀ (i j : Instr) (a b : ThreadSet) (s : State), s.mem.wf = true →
    instrThread i = some a → instrThread j = some b → a ≠ b →
    ∃ ti tij tj tji vi vj, exec i s = .next ti ∧ exec j ti = .next tij ∧
      exec j s = .next tj ∧ exec i tj = .next tji ∧
      tij.regs = tji.regs ∧ tij.mem = tji.mem ∧
      ti.returned = s.returned ++ vi ∧ tij.returned = s.returned ++ vi ++ vj ∧
      tj.returned = s.returned ++ vj ∧ tji.returned = s.returned ++ vj ++ vi

/-! ### Beside the housekeeping commands -/

/-- 43_host_access.md R173: CLR answers a next state in which every register is in its reset state and every assigned
number reads 0. -/
def Obligations.ClrPutsEveryRegisterInItsResetState : Prop :=
  decodeWord 0x100000000004#45 = .clr ∧
    ∀ s : State, ∃ t, exec .clr s = .next t ∧ t.regs = State.reset.regs ∧ t.mem = State.reset.mem ∧
      ∀ (a : RegNum) (r : Reg), regAt a = some r → readReg r t = 0#32
end

