-- ==== Sys2Proof/Laws/Memory.lean ====
section
/-! SUPPORT. The laws of the byte registers: read after write, the canonical form and its uniqueness, and the same for
a run of bytes. -/

namespace Sys2Proof.Machine

@[simp] theorem Memory.read_nil (a : Nat) : Memory.read [] a = 0#8 := rfl

/-- A canonical memory from `n` on lists nothing below `n`. -/
theorem Memory.read_below {m : Memory} {n a : Nat} (h : m.wfFrom n = true) (ha : a < n) : m.read a = 0#8 := by
  induction m generalizing n with
  | nil => rfl
  | cons c m ih =>
    simp only [Memory.wfFrom, Bool.and_eq_true, decide_eq_true_eq] at h
    have hne : c.1 ≠ a := by omega
    simp only [Memory.read, if_neg hne]
    exact ih h.2 (by omega)

/-- A lower bound may be lowered. -/
theorem Memory.wfFrom_mono {m : Memory} {n k : Nat} (h : m.wfFrom n = true) (hk : k ≤ n) : m.wfFrom k = true := by
  cases m with
  | nil => rfl
  | cons c m =>
    simp only [Memory.wfFrom, Bool.and_eq_true, decide_eq_true_eq] at h ⊢
    exact ⟨⟨by omega, h.1.2⟩, h.2⟩

/-- A write keeps the canonical form above any bound it respects. -/
theorem Memory.wfFrom_write {m : Memory} {n a : Nat} (b : Byte) (h : m.wfFrom n = true) (ha : n ≤ a) :
    (m.write a b).wfFrom n = true := by
  induction m generalizing n with
  | nil =>
    unfold Memory.write
    split
    · rfl
    · simp_all [Memory.wfFrom]
  | cons c m ih =>
    have hc := h
    simp only [Memory.wfFrom, Bool.and_eq_true, decide_eq_true_eq] at h
    obtain ⟨⟨h1, h2⟩, h3⟩ := h
    unfold Memory.write
    split
    · split
      · exact hc
      · simp only [Memory.wfFrom, Bool.and_eq_true, decide_eq_true_eq]
        exact ⟨⟨ha, by assumption⟩, ⟨by omega, h2⟩, h3⟩
    · split
      · split
        · exact Memory.wfFrom_mono h3 (by omega)
        · simp only [Memory.wfFrom, Bool.and_eq_true, decide_eq_true_eq]
          refine ⟨⟨ha, by assumption⟩, ?_⟩
          simpa [show a = c.1 by omega] using h3
      · simp only [Memory.wfFrom, Bool.and_eq_true, decide_eq_true_eq]
        exact ⟨⟨h1, h2⟩, ih h3 (by omega)⟩

/-- A write keeps the canonical form. -/
theorem Memory.wf_write {m : Memory} (a : Nat) (b : Byte) (h : m.wf = true) : (m.write a b).wf = true :=
  Memory.wfFrom_write b h (Nat.zero_le a)

/-- A write leaves every other byte register alone. -/
theorem Memory.read_write_other (m : Memory) {a a' : Nat} (b : Byte) (h : a' ≠ a) :
    (m.write a b).read a' = m.read a' := by
  induction m with
  | nil =>
    unfold Memory.write
    split
    · rfl
    · simp [Memory.read, h.symm]
  | cons c m ih =>
    unfold Memory.write
    split
    · split
      · rfl
      · simp [Memory.read, h.symm]
    · split
      · have hc : c.1 ≠ a' := by omega
        split <;> simp [Memory.read, hc, h.symm]
      · simp [Memory.read, ih]

/-- In a canonical memory a byte register reads what was last written to it. -/
theorem Memory.read_write_self {m : Memory} (a : Nat) (b : Byte) (h : m.wf = true) : (m.write a b).read a = b := by
  suffices H : ∀ n, m.wfFrom n = true → (m.write a b).read a = b from H 0 h
  clear h
  induction m with
  | nil =>
    intro n _
    unfold Memory.write
    split <;> simp_all [Memory.read]
  | cons c m ih =>
    intro n h
    simp only [Memory.wfFrom, Bool.and_eq_true, decide_eq_true_eq] at h
    obtain ⟨⟨h1, h2⟩, h3⟩ := h
    unfold Memory.write
    split
    · split
      · rename_i hlt hb
        rw [hb]
        have hc : c.1 ≠ a := by omega
        simp only [Memory.read, if_neg hc]
        exact Memory.read_below h3 (by omega)
      · simp [Memory.read]
    · split
      · split
        · rename_i hb
          rw [hb]
          exact Memory.read_below h3 (by omega)
        · simp [Memory.read]
      · rename_i hc
        simp only [Memory.read, if_neg hc]
        exact ih _ h3

/-- One write, read anywhere. -/
theorem Memory.read_write {m : Memory} (a a' : Nat) (b : Byte) (h : m.wf = true) :
    (m.write a b).read a' = if a' = a then b else m.read a' := by
  split
  · subst a'
    exact Memory.read_write_self a b h
  · exact Memory.read_write_other m b ‹_›

/-- Canonical memories with equal bytes are equal lists. -/
theorem Memory.ext_read {m m' : Memory} (h : m.wf = true) (h' : m'.wf = true) (e : ∀ a, m.read a = m'.read a) :
    m = m' := by
  suffices H : ∀ n n', m.wfFrom n = true → m'.wfFrom n' = true → m = m' from H 0 0 h h'
  clear h h'
  induction m generalizing m' with
  | nil =>
    intro n n' _ h'
    cases m' with
    | nil => rfl
    | cons c m' =>
      simp only [Memory.wfFrom, Bool.and_eq_true, decide_eq_true_eq] at h'
      have := e c.1
      simp [Memory.read] at this
      exact absurd this.symm h'.1.2
  | cons c m ih =>
    intro n n' h h'
    have hw := h
    have hw' := h'
    simp only [Memory.wfFrom, Bool.and_eq_true, decide_eq_true_eq] at h
    cases m' with
    | nil =>
      have := e c.1
      simp [Memory.read] at this
      exact absurd this h.1.2
    | cons c' m' =>
      simp only [Memory.wfFrom, Bool.and_eq_true, decide_eq_true_eq] at h'
      have key : c.1 = c'.1 := by
        rcases Nat.lt_trichotomy c.1 c'.1 with hlt | heq | hgt
        · have := e c.1
          rw [Memory.read_below (m := c' :: m') (n := c'.1) (by
            simp only [Memory.wfFrom, Bool.and_eq_true, decide_eq_true_eq]
            exact ⟨⟨Nat.le_refl _, h'.1.2⟩, h'.2⟩) hlt] at this
          simp [Memory.read] at this
          exact absurd this h.1.2
        · exact heq
        · have := e c'.1
          rw [Memory.read_below (m := c :: m) (n := c.1) (by
            simp only [Memory.wfFrom, Bool.and_eq_true, decide_eq_true_eq]
            exact ⟨⟨Nat.le_refl _, h.1.2⟩, h.2⟩) hgt] at this
          simp [Memory.read] at this
          exact absurd this.symm h'.1.2
      have val : c.2 = c'.2 := by
        have := e c.1
        simpa [Memory.read, key] using this
      have hc : c = c' := Prod.ext key val
      subst hc
      have : m = m' := by
        refine ih (fun a => ?_) _ _ h.2 h'.2
        rcases Nat.lt_or_ge a (c.1 + 1) with hlt | hge
        · rw [Memory.read_below h.2 hlt, Memory.read_below h'.2 hlt]
        · have := e a
          have hne : c.1 ≠ a := by omega
          simpa [Memory.read, hne] using this
      rw [this]

/-- A run of writes keeps the canonical form. -/
theorem Memory.wf_writeBytes {m : Memory} (a : Nat) (bs : List Byte) (h : m.wf = true) :
    (m.writeBytes a bs).wf = true := by
  induction bs generalizing m a with
  | nil => exact h
  | cons b bs ih => exact ih _ (Memory.wf_write a b h)

/-- A run of writes leaves every byte register outside it alone. -/
theorem Memory.read_writeBytes_outside (m : Memory) {a a' : Nat} (bs : List Byte)
    (h : a' < a ∨ a + bs.length ≤ a') : (m.writeBytes a bs).read a' = m.read a' := by
  induction bs generalizing m a with
  | nil => rfl
  | cons b bs ih =>
    simp only [List.length_cons] at h
    rw [Memory.writeBytes, ih _ (by omega), Memory.read_write_other _ _ (by omega)]

/-- In a canonical memory a run of writes is read back byte by byte. -/
theorem Memory.read_writeBytes_inside {m : Memory} (a : Nat) (bs : List Byte) (i : Nat) (h : m.wf = true)
    (hi : i < bs.length) : (m.writeBytes a bs).read (a + i) = byteAt bs i := by
  induction bs generalizing m a i with
  | nil => simp at hi
  | cons b bs ih =>
    rw [Memory.writeBytes]
    cases i with
    | zero =>
      rw [Memory.read_writeBytes_outside _ _ (by omega)]
      simpa [byteAt] using Memory.read_write_self a b h
    | succ i =>
      have := ih (m := m.write a b) (a + 1) i (Memory.wf_write a b h) (by simpa using hi)
      simpa [byteAt, Nat.add_assoc, Nat.add_comm 1 i] using this

/-- Everything a cell of a written memory can be: a cell of before, or the byte written. -/
theorem Memory.mem_write {m : Memory} {a : Nat} {b : Byte} {c : Host.Cell} (h : c ∈ m.write a b) :
    c ∈ m ∨ c = (a, b) := by
  induction m with
  | nil =>
    unfold Memory.write at h
    split at h <;> simp_all
  | cons d m ih =>
    unfold Memory.write at h
    split at h
    · split at h
      · exact .inl h
      · rcases List.mem_cons.1 h with h | h
        · exact .inr h
        · exact .inl h
    · split at h
      · split at h
        · exact .inl (List.mem_cons_of_mem _ h)
        · rcases List.mem_cons.1 h with h | h
          · exact .inr h
          · exact .inl (List.mem_cons_of_mem _ h)
      · rcases List.mem_cons.1 h with h | h
        · exact .inl (h ▸ List.mem_cons_self ..)
        · rcases ih h with h | h
          · exact .inl (List.mem_cons_of_mem _ h)
          · exact .inr h

/-- Everything a cell can be after a run of writes: a cell of before, or one inside the run. -/
theorem Memory.mem_writeBytes {m : Memory} {a : Nat} {bs : List Byte} {c : Host.Cell} (h : c ∈ m.writeBytes a bs) :
    c ∈ m ∨ (a ≤ c.1 ∧ c.1 < a + bs.length) := by
  induction bs generalizing m a with
  | nil => exact .inl h
  | cons b bs ih =>
    simp only [List.length_cons]
    rcases ih h with h | h
    · rcases Memory.mem_write h with h | h
      · exact .inl h
      · right
        subst h
        omega
    · right
      omega

@[simp] theorem Memory.length_readBytes (m : Memory) (a n : Nat) : (m.readBytes a n).length = n := by
  simp [Memory.readBytes]

/-- Byte `i` of a run read from memory. -/
theorem Memory.byteAt_readBytes (m : Memory) (a n : Nat) {i : Nat} (h : i < n) :
    byteAt (m.readBytes a n) i = m.read (a + i) := by
  simp [byteAt, Memory.readBytes, List.getD, h]

end Sys2Proof.Machine
end

