-- ==== Sys2Proof/Laws/Codec.lean ====
section
/-! SUPPORT. The laws of the codec's shared operations: byte strings, little-endian words, the two length functions
and the length of a wire frame. -/

namespace Sys2Proof.Machine

@[simp] theorem le32_length (v : Word) : (le32 v).length = 4 := rfl

@[simp] theorem zeroPadded_length (n : Nat) (bs : List Byte) : (zeroPadded n bs).length = n := by simp [zeroPadded]

@[simp] theorem dataArea_length (d : List Byte) (n a : Nat) : (dataArea d n a).length = a := by simp [dataArea]

/-- Past its end a byte string reads 0. -/
theorem byteAt_of_le {bs : List Byte} {i : Nat} (h : bs.length ≤ i) : byteAt bs i = 0#8 := by
  simp [byteAt, List.getD, h]

/-- Byte `i` of a padded string is byte `i` of the string, or 0. -/
theorem byteAt_zeroPadded {n i : Nat} (bs : List Byte) (h : i < n) : byteAt (zeroPadded n bs) i = byteAt bs i := by
  simp [zeroPadded, byteAt, List.getD, h]

/-- Byte `i` of a concatenation. -/
theorem byteAt_append (bs cs : List Byte) (i : Nat) :
    byteAt (bs ++ cs) i = if i < bs.length then byteAt bs i else byteAt cs (i - bs.length) := by
  simp only [byteAt, List.getD]
  split
  · rw [List.getElem?_append_left ‹_›]
  · rw [List.getElem?_append_right (by omega)]

/-- Byte `i` of a data area. -/
theorem byteAt_dataArea (d : List Byte) (n : Nat) {a i : Nat} (h : i < a) :
    byteAt (dataArea d n a) i = if i < n then byteAt d i else 0#8 := by
  simp only [byteAt, dataArea, List.getD, List.getElem?_map, List.getElem?_range h, Option.map_some, Option.getD_some]

/-- Four bytes that are `LE32(v)` assemble to `v`. -/
theorem le32At_of_bytes {bs : List Byte} {i : Nat} {v : Word} (h0 : byteAt bs i = v.extractLsb' 0 8)
    (h1 : byteAt bs (i + 1) = v.extractLsb' 8 8) (h2 : byteAt bs (i + 2) = v.extractLsb' 16 8)
    (h3 : byteAt bs (i + 3) = v.extractLsb' 24 8) : le32At bs i = v := by
  unfold le32At
  rw [h0, h1, h2, h3]
  ext k hk
  simp only [BitVec.getElem_append, BitVec.getElem_extractLsb']
  split
  · simp [BitVec.getLsbD_eq_getElem hk]
  · split
    · rw [show 8 + (k - 8) = k by omega, BitVec.getLsbD_eq_getElem hk]
    · split
      · rw [show 16 + (k - 8 - 8) = k by omega, BitVec.getLsbD_eq_getElem hk]
      · rw [show 24 + (k - 8 - 8 - 8) = k by omega, BitVec.getLsbD_eq_getElem hk]

/-- The four bytes of an assembled word. -/
theorem le32At_bytes (bs : List Byte) (i : Nat) :
    (le32At bs i).extractLsb' 0 8 = byteAt bs i ∧ (le32At bs i).extractLsb' 8 8 = byteAt bs (i + 1) ∧
      (le32At bs i).extractLsb' 16 8 = byteAt bs (i + 2) ∧ (le32At bs i).extractLsb' 24 8 = byteAt bs (i + 3) := by
  unfold le32At
  refine ⟨?_, ?_, ?_, ?_⟩ <;>
  · ext k hk
    have hk' := hk
    simp only [BitVec.getElem_extractLsb', BitVec.getLsbD_append]
    rw [← BitVec.getLsbD_eq_getElem hk]
    split <;> first | (exfalso; omega) | skip
    all_goals first
      | (congr 1; omega)
      | (split <;> first | (exfalso; omega) | skip
         all_goals first
          | (congr 1; omega)
          | (split <;> first | (exfalso; omega) | (congr 1; omega)))

/-- The length of a wire frame (30_encoding.md R93). -/
@[simp] theorem wireFrame_length (tsOn : Bool) (f : Frame) (dlc area : Nat) (fl : Byte) :
    (wireFrame tsOn f dlc area fl).length = Config.hdrBytes + area + tsBytes tsOn := by
  cases tsOn <;> simp [wireFrame, tsBytes, Config.hdrBytes] <;> omega

/-- A code that is at most 15 has a length of at most 64. -/
theorem dlc2len_le {c : Nat} (h : c ≤ 15) : dlc2len c ≤ 64 := by
  revert c
  decide

/-- A length of at most 64 has a code of at most 15 and fits in that code's length. -/
theorem len2dlc_spec {n : Nat} (h : n ≤ 64) : len2dlc n ≤ 15 ∧ n ≤ dlc2len (len2dlc n) := by
  revert n
  decide

end Sys2Proof.Machine
end

