-- ==== Sys2Proof/Laws/State.lean ====
section
/-! SUPPORT. One lemma per field and update: what each shared operation leaves in each field of State. -/

namespace Sys2Proof.Machine

@[simp] theorem raise_unitT_regs (k : ErrorKind) (s : State) :
    (raise k .unitT s).regs = { s.regs with tStatus := .failure k } := rfl

@[simp] theorem raise_unitE_regs (k : ErrorKind) (s : State) :
    (raise k .unitE s).regs = { s.regs with eStatus := .failure k } := rfl

@[simp] theorem raise_unitD_regs (k : ErrorKind) (s : State) :
    (raise k .unitD s).regs = { s.regs with dStatus := .failure k } := rfl

@[simp] theorem raise_hostPort_regs (k : ErrorKind) (s : State) :
    (raise k .hostPort s).regs = { s.regs with fault := s.regs.fault.record k } := rfl

@[simp] theorem raise_mem (k : ErrorKind) (u : Raiser) (s : State) : (raise k u s).mem = s.mem := by cases u <;> rfl

@[simp] theorem raise_pending (k : ErrorKind) (u : Raiser) (s : State) : (raise k u s).pending = s.pending := by
  cases u <;> rfl

@[simp] theorem raise_returned (k : ErrorKind) (u : Raiser) (s : State) : (raise k u s).returned = s.returned := by
  cases u <;> rfl

@[simp] theorem clearRegisters_regs (s : State) : (clearRegisters s).regs = .reset := rfl
@[simp] theorem clearRegisters_mem (s : State) : (clearRegisters s).mem = [] := rfl
@[simp] theorem clearRegisters_pending (s : State) : (clearRegisters s).pending = s.pending := rfl
@[simp] theorem clearRegisters_returned (s : State) : (clearRegisters s).returned = s.returned := rfl

@[simp] theorem returnValue_regs (v : Word) (s : State) : (returnValue v s).regs = s.regs := rfl
@[simp] theorem returnValue_mem (v : Word) (s : State) : (returnValue v s).mem = s.mem := rfl
@[simp] theorem returnValue_pending (v : Word) (s : State) : (returnValue v s).pending = s.pending := rfl
@[simp] theorem returnValue_returned (v : Word) (s : State) : (returnValue v s).returned = s.returned ++ [v] := rfl

@[simp] theorem writeBuffer_regs (b : Buffer) (bs : List Byte) (s : State) : (writeBuffer b bs s).regs = s.regs := rfl
@[simp] theorem writeBuffer_mem (b : Buffer) (bs : List Byte) (s : State) :
    (writeBuffer b bs s).mem = s.mem.writeBytes b.base (zeroPadded b.size bs) := rfl
@[simp] theorem writeBuffer_pending (b : Buffer) (bs : List Byte) (s : State) :
    (writeBuffer b bs s).pending = s.pending := rfl
@[simp] theorem writeBuffer_returned (b : Buffer) (bs : List Byte) (s : State) :
    (writeBuffer b bs s).returned = s.returned := rfl

@[simp] theorem writeBitTiming_regs (b : BitTiming) (s : State) :
    (writeBitTiming b s).regs = { s.regs with
      btPropSeg := BitVec.ofNat 32 b.propSeg
      btPhaseSeg1 := BitVec.ofNat 32 b.phaseSeg1
      btPhaseSeg2 := BitVec.ofNat 32 b.phaseSeg2
      btSjw := BitVec.ofNat 32 b.sjw
      btBrp := BitVec.ofNat 32 b.brp
      btTq := BitVec.ofNat 32 b.tq
      tStatus := .success } := rfl
@[simp] theorem writeBitTiming_mem (b : BitTiming) (s : State) : (writeBitTiming b s).mem = s.mem := rfl
@[simp] theorem writeBitTiming_pending (b : BitTiming) (s : State) : (writeBitTiming b s).pending = s.pending := rfl
@[simp] theorem writeBitTiming_returned (b : BitTiming) (s : State) : (writeBitTiming b s).returned = s.returned := rfl

@[simp] theorem writeWireFrame_regs (w : List Byte) (s : State) :
    (writeWireFrame w s).regs = { s.regs with txwLen := BitVec.ofNat 8 w.length, eStatus := .success } := by
  simp only [writeWireFrame, writeBuffer]

@[simp] theorem writeWireFrame_mem (w : List Byte) (s : State) :
    (writeWireFrame w s).mem = s.mem.writeBytes Buffer.txw.base (zeroPadded Buffer.txw.size w) := by
  simp only [writeWireFrame, writeBuffer]

@[simp] theorem writeWireFrame_pending (w : List Byte) (s : State) : (writeWireFrame w s).pending = s.pending := by
  simp only [writeWireFrame, writeBuffer]

@[simp] theorem writeWireFrame_returned (w : List Byte) (s : State) :
    (writeWireFrame w s).returned = s.returned := by
  simp only [writeWireFrame, writeBuffer]

@[simp] theorem writeRxFrame_regs (tsOn : Bool) (f : Frame) (s : State) :
    (writeRxFrame tsOn f s).regs = { s.regs with
      rxEchoId := f.echoId
      rxCanId := f.canId
      rxChannel := f.channel
      rxFlags := f.flags
      rxLen := f.len
      rxTs := f.ts
      dStatus := .success (isReceived f.echoId) tsOn } := by
  simp only [writeRxFrame, writeBuffer]

@[simp] theorem writeRxFrame_mem (tsOn : Bool) (f : Frame) (s : State) :
    (writeRxFrame tsOn f s).mem = s.mem.writeBytes Buffer.rxData.base (zeroPadded Buffer.rxData.size f.data) := by
  simp only [writeRxFrame, writeBuffer]

@[simp] theorem writeRxFrame_pending (tsOn : Bool) (f : Frame) (s : State) :
    (writeRxFrame tsOn f s).pending = s.pending := by
  simp only [writeRxFrame, writeBuffer]

@[simp] theorem writeRxFrame_returned (tsOn : Bool) (f : Frame) (s : State) :
    (writeRxFrame tsOn f s).returned = s.returned := by
  simp only [writeRxFrame, writeBuffer]

@[simp] theorem writeReg_pending (r : Reg) (v : Word) (s : State) : (writeReg r v s).pending = s.pending := by
  cases r with
  | element b i => cases b <;> rfl
  | _ => rfl

@[simp] theorem writeReg_returned (r : Reg) (v : Word) (s : State) : (writeReg r v s).returned = s.returned := by
  cases r with
  | element b i => cases b <;> rfl
  | _ => rfl

end Sys2Proof.Machine
end

