-- ==== Sys2Proof/Laws/Operands.lean ====
section
/-! SUPPORT. The laws of the register map: a number names the register of that number, an element lies in its buffer,
and what one host write leaves in the byte registers. -/

namespace Sys2Proof.Machine

/-- A number names the register of that number. -/
theorem regAt_number {a : RegNum} {r : Reg} (h : regAt a = some r) : r.number = a.toNat := by
  unfold regAt at h
  split at h
  · rename_i x hx
    have := List.find?_some hx
    simp_all
  · simp only [Option.map_eq_some_iff] at h
    obtain ⟨b, hb, rfl⟩ := h
    have := List.find?_some hb
    simp [Buffer.holds] at this
    simp only [Reg.number]
    omega

/-- An element that a number names lies in its buffer. -/
theorem regAt_element {a : RegNum} {b : Buffer} {i : Nat} (h : regAt a = some (.element b i)) :
    i < b.size ∧ a.toNat = b.base + i := by
  refine ⟨?_, (regAt_number h).symm⟩
  unfold regAt at h
  split at h
  · rename_i x hx
    have hm := List.mem_of_find?_eq_some hx
    simp only [Option.some.injEq] at h
    subst h
    simp [Reg.scalars] at hm
  · simp only [Option.map_eq_some_iff, Reg.element.injEq] at h
    obtain ⟨b', hb, rfl, rfl⟩ := h
    have := List.find?_some hb
    simp [Buffer.holds] at this
    omega

/-- Two numbers that name one register are one number. -/
theorem regAt_injective {a a' : RegNum} {r : Reg} (h : regAt a = some r) (h' : regAt a' = some r) : a = a' :=
  BitVec.eq_of_toNat_eq ((regAt_number h).symm.trans (regAt_number h'))

/-- A host write keeps the canonical form. -/
theorem writeReg_wf {s : State} (r : Reg) (v : Word) (h : s.mem.wf = true) : (writeReg r v s).mem.wf = true := by
  cases r with
  | element b i => cases b <;> first | exact h | exact Memory.wf_write _ _ h
  | _ => exact h

/-- A host write leaves every byte register but the one written alone. -/
theorem writeReg_read_other (r : Reg) (v : Word) (s : State) {a : Nat} (h : a ≠ r.number) :
    (writeReg r v s).mem.read a = s.mem.read a := by
  cases r with
  | element b i => cases b <;> first | rfl | exact Memory.read_write_other _ _ h
  | _ => rfl

/-- A host write of a register that is not RW changes nothing. -/
theorem writeReg_of_not_rw {r : Reg} (v : Word) (s : State) (h : r.access ≠ .rw) : writeReg r v s = s := by
  cases r with
  | element b i => cases b <;> first | rfl | exact absurd rfl h
  | _ => first | rfl | exact absurd rfl h

end Sys2Proof.Machine
end

