-- ==== Sys2Proof/Laws/PerInstr.lean ====
section
/-! SUPPORT. A statement made per instruction: its encoding matches the row of the table it belongs to
(30_encoding.md R83). -/

namespace Sys2Proof.Laws.EncodingMatchesRow

/-- A well-formed instruction's word matches the row of its own mnemonic. -/
def Statement (i : Instr) : Prop :=
  i.wellFormed = true → ∃ r ∈ opcodeTable, r.mnemonic = i.mnemonic ∧ r.matchesWord (encode i) = true

theorem nop : Statement .nop := by
  intro _
  exact ⟨⟨"NOP", 0x100000000000#45, 0x1FFFFFFFFFFF#45⟩, by decide, rfl, by decide⟩

theorem tcalc : Statement .tcalc := by
  intro _
  exact ⟨⟨"TCALC", 0x100000000001#45, 0x1FFFFFFFFFFF#45⟩, by decide, rfl, by decide⟩

theorem fenc : Statement .fenc := by
  intro _
  exact ⟨⟨"FENC", 0x100000000002#45, 0x1FFFFFFFFFFF#45⟩, by decide, rfl, by decide⟩

theorem fdec : Statement .fdec := by
  intro _
  exact ⟨⟨"FDEC", 0x100000000003#45, 0x1FFFFFFFFFFF#45⟩, by decide, rfl, by decide⟩

theorem clr : Statement .clr := by
  intro _
  exact ⟨⟨"CLR", 0x100000000004#45, 0x1FFFFFFFFFFF#45⟩, by decide, rfl, by decide⟩

/-- Masking ADDR and WR out of a command's word leaves the row's bits, whatever the command word is. -/
theorem commandWord_and_mask (v : Word) : commandWord v &&& 0x1FFF00000000#45 = 0x100000000000#45 := by
  have h : (0x1FFF00000000#45 : TxnWord) = 1#1 ++ 0xFFF#12 ++ 0#32 := by decide
  have h' : (0x100000000000#45 : TxnWord) = 1#1 ++ 0#12 ++ 0#32 := by decide
  rw [h, h', commandWord, txnWord, BitVec.and_append, BitVec.and_append]
  simp

/-- Masking the WR bit out of a word. -/
theorem txnWord_and_mask (b : BitVec 1) (a : RegNum) (v : Word) :
    txnWord b a v &&& 0x100000000000#45 = txnWord b 0#12 0#32 := by
  have h : (0x100000000000#45 : TxnWord) = 1#1 ++ 0#12 ++ 0#32 := by decide
  have hb : ∀ b : BitVec 1, b &&& 1#1 = b := by decide
  rw [h, txnWord, txnWord, BitVec.and_append, BitVec.and_append, hb]
  simp

theorem illegal (data : Word) : Statement (.illegal data) := by
  intro _
  exact ⟨⟨"ILLEGAL", 0x100000000000#45, 0x1FFF00000000#45⟩, by decide, rfl,
    decide_eq_true (commandWord_and_mask data)⟩

theorem wr (addr : RegNum) (data : Word) : Statement (.wr addr data) := by
  intro _
  exact ⟨⟨"WR", 0x100000000000#45, 0x100000000000#45⟩, by decide, rfl,
    decide_eq_true ((txnWord_and_mask 1#1 addr data).trans (by decide))⟩

theorem rd (addr : RegNum) (data : Word) : Statement (.rd addr data) := by
  intro _
  exact ⟨⟨"RD", 0x000000000000#45, 0x100000000000#45⟩, by decide, rfl,
    decide_eq_true ((txnWord_and_mask 0#1 addr data).trans (by decide))⟩

end Sys2Proof.Laws.EncodingMatchesRow
end

