-- ==== Sys2Proof/Laws/Timing.lean ====
section
/-! SUPPORT. The laws of unit T's shared operations: what each list of the search holds and what one step of the scan
keeps. -/

namespace Sys2Proof.Machine

/-- `ascending a b` holds exactly the numbers from `a` to `b`. -/
theorem mem_ascending {a b n : Nat} : n ∈ ascending a b ↔ a ≤ n ∧ n ≤ b := by
  simp only [ascending, List.mem_range'_1]
  omega

/-- The quanta count of a prescaler (40_timing.md R103). -/
theorem quanta_eq_some {o : TimingOperands} {brp q : Nat} :
    quanta o brp = some q ↔
      brp * o.bitrate ≠ 0 ∧ o.clockHz % (brp * o.bitrate) = 0 ∧ q = o.clockHz / (brp * o.bitrate) := by
  unfold quanta
  simp only
  split
  · rename_i h
    simp only [reduceCtorEq, false_iff]
    rintro ⟨h1, h2, _⟩
    exact h.elim h1 (fun h => h h2)
  · simp only [Option.some.injEq]
    constructor
    · rintro rfl
      exact ⟨by omega, by omega, rfl⟩
    · rintro ⟨_, _, rfl⟩
      rfl

/-- The splits of a quanta count, as the list is written. -/
theorem mem_splits {o : TimingOperands} {brp q : Nat} {c : Candidate} :
    c ∈ splits o brp q ↔
      c.brp = brp ∧ c.q = q ∧ c.ps2 = q - 1 - c.t1 ∧ max (2 * o.lo) (q - 1 - o.hi) ≤ c.t1 ∧
        c.t1 ≤ min (o.lo + o.hi) (q - 1 - o.lo) := by
  simp only [splits, List.mem_map, mem_ascending]
  constructor
  · rintro ⟨t1, ⟨h1, h2⟩, rfl⟩
    exact ⟨rfl, rfl, rfl, h1, h2⟩
  · rintro ⟨rfl, rfl, h, h1, h2⟩
    exact ⟨c.t1, ⟨h1, h2⟩, by rw [← h]⟩

/-- The candidates of one prescaler: the splits of its quanta count. -/
theorem mem_candidatesAt {o : TimingOperands} {brp : Nat} {c : Candidate} :
    c ∈ candidatesAt o brp ↔ ∃ q, quanta o brp = some q ∧ c ∈ splits o brp q := by
  unfold candidatesAt
  split <;> simp_all

/-- One step of the scan keeps the best so far or takes the new candidate. -/
theorem keepBest_some (sync sp : Nat) (b c : Candidate) :
    (keepBest sync sp (some b) c = some c ∧ smallerError sync sp c b = true) ∨
      (keepBest sync sp (some b) c = some b ∧ smallerError sync sp c b = false) := by
  unfold keepBest
  cases h : smallerError sync sp c b <;> simp [h]

@[simp] theorem keepBest_none (sync sp : Nat) (c : Candidate) : keepBest sync sp none c = some c := rfl

end Sys2Proof.Machine
end

