-- ==== Sys2Proof/Laws/Step.lean ====
section
/-! SUPPORT. Once for every instruction and for the step: everything it can do. Later proofs cite these and unfold no
meaning. -/

namespace Sys2Proof.Machine

theorem execNop_cases {s t : State} (h : exec .nop s = .next t) : t = s := by
  cases h
  rfl

theorem execClr_cases {s t : State} (h : exec .clr s = .next t) : t = clearRegisters s := by
  cases h
  rfl

theorem execIllegal_cases {v : Word} {s t : State} (h : exec (.illegal v) s = .next t) :
    t = raise .illegalCommand .hostPort s := by
  cases h
  rfl

/-- WR stores in an RW register or is refused. -/
theorem execWr_cases {a : RegNum} {v : Word} {s t : State} (h : exec (.wr a v) s = .next t) :
    (∃ r, regAt a = some r ∧ r.access = .rw ∧ t = writeReg r v s) ∨
      ((∀ r, regAt a = some r → r.access ≠ .rw) ∧ t = raise .badAccess .hostPort s) := by
  simp only [exec, execWr] at h
  split at h
  · rename_i r hr
    split at h
    · cases h
      exact .inl ⟨r, hr, ‹_›, rfl⟩
    · cases h
      refine .inr ⟨fun r' hr' => ?_, rfl⟩
      rw [hr] at hr'
      cases hr'
      assumption
  · cases h
    rename_i hr
    exact .inr ⟨fun r' hr' => by simp [hr] at hr', rfl⟩

/-- RD returns a register's value or is refused and returns 0. -/
theorem execRd_cases {a : RegNum} {v : Word} {s t : State} (h : exec (.rd a v) s = .next t) :
    (∃ r, regAt a = some r ∧ t = returnValue (readReg r s) s) ∨
      (regAt a = none ∧ t = returnValue 0#32 (raise .badAccess .hostPort s)) := by
  simp only [exec, execRd] at h
  split at h
  · cases h
    exact .inl ⟨_, ‹_›, rfl⟩
  · cases h
    exact .inr ⟨‹_›, rfl⟩

/-- TCALC writes a result or raises `UnsupportedBitrate`. -/
theorem execTcalc_cases {s t : State} (h : exec .tcalc s = .next t) :
    (∃ b, computeTiming Config.syncInSp (timingOperands s) = some b ∧ t = writeBitTiming b s) ∨
      (computeTiming Config.syncInSp (timingOperands s) = none ∧ t = raise .unsupportedBitrate .unitT s) := by
  simp only [exec, execTcalc] at h
  split at h
  · cases h
    exact .inl ⟨_, ‹_›, rfl⟩
  · cases h
    exact .inr ⟨‹_›, rfl⟩

/-- FENC writes a wire frame or raises `InvalidFrame`. -/
theorem execFenc_cases {s t : State} (h : exec .fenc s = .next t) :
    (∃ w, encodeFrame s.regs.cfgHwTs (txFrame s) = some w ∧ t = writeWireFrame w s) ∨
      (encodeFrame s.regs.cfgHwTs (txFrame s) = none ∧ t = raise .invalidFrame .unitE s) := by
  simp only [exec, execFenc] at h
  split at h
  · rename_i w hw
    refine .inl ⟨w, hw, ?_⟩
    injection h with h
    exact h.symm
  · cases h
    exact .inr ⟨‹_›, rfl⟩

/-- FDEC writes a Frame or raises `InvalidFrame`. -/
theorem execFdec_cases {s t : State} (h : exec .fdec s = .next t) :
    (∃ f, decodeFrame s.regs.cfgHwTs s.regs.rxwLen.toNat (readBuffer .rxw s) = some f ∧
        t = writeRxFrame s.regs.cfgHwTs f s) ∨
      (decodeFrame s.regs.cfgHwTs s.regs.rxwLen.toNat (readBuffer .rxw s) = none ∧
        t = raise .invalidFrame .unitD s) := by
  simp only [exec, execFdec] at h
  split at h
  · rename_i f hf
    refine .inl ⟨f, hf, ?_⟩
    injection h with h
    exact h.symm
  · cases h
    exact .inr ⟨‹_›, rfl⟩

/-- Every instruction has a next state (70_reset_and_hazards.md R271). -/
theorem exec_completes (i : Instr) (s : State) : ∃ t, exec i s = .next t := by
  cases i with
  | nop => exact ⟨_, rfl⟩
  | tcalc =>
    simp only [exec, execTcalc]
    split <;> exact ⟨_, rfl⟩
  | fenc =>
    simp only [exec, execFenc]
    split <;> exact ⟨_, rfl⟩
  | fdec =>
    simp only [exec, execFdec]
    split <;> exact ⟨_, rfl⟩
  | clr => exact ⟨_, rfl⟩
  | illegal v => exact ⟨_, rfl⟩
  | wr a v =>
    simp only [exec, execWr]
    split
    · split <;> exact ⟨_, rfl⟩
    · exact ⟨_, rfl⟩
  | rd a v =>
    simp only [exec, execRd]
    split <;> exact ⟨_, rfl⟩

/-- A step performs the oldest event on the port, or none when the port is empty. -/
theorem step_cases {s t : State} (h : step s = .next t) :
    (s.pending = [] ∧ t = s) ∨
      (∃ rest, s.pending = .reset :: rest ∧ t = clearRegisters { s with pending := rest }) ∨
      (∃ w rest, s.pending = .transaction w :: rest ∧ exec (decodeWord w) { s with pending := rest } = .next t) := by
  obtain ⟨r, m, p, v⟩ := s
  cases p with
  | nil =>
    left
    simp only [step, takeEvent, idle, Host.Outcome.next.injEq] at h
    exact ⟨rfl, h.symm⟩
  | cons e rest =>
    cases e with
    | reset =>
      right; left
      simp only [step, takeEvent, Host.Outcome.next.injEq] at h
      exact ⟨rest, rfl, h.symm⟩
    | transaction w =>
      right; right
      exact ⟨w, rest, rfl, h⟩

end Sys2Proof.Machine
end

