-- ==== Sys2Proof/Tests/Slice0.lean ====
section
/-! SUPPORT. The model's own tests, and for every statement with hypotheses a concrete case that meets them. Expected
results are those of 95_test_vectors.md and 40_timing.md R121, written by the spec's author by hand and not taken from
this model. -/

namespace Sys2Proof.Tests

open Sys2Proof.Machine Sys2Proof.Safety

/-! ### Decoding: words written out from 30_encoding.md R80 to R83 -/

theorem test_decode_nop : decodeWord 0x100000000000#45 = .nop := by decide

theorem test_decode_tcalc : decodeWord 0x100000000001#45 = .tcalc := by decide

theorem test_decode_fenc : decodeWord 0x100000000002#45 = .fenc := by decide

theorem test_decode_fdec : decodeWord 0x100000000003#45 = .fdec := by decide

theorem test_decode_clr : decodeWord 0x100000000004#45 = .clr := by decide

/-- 95_test_vectors.md V9 H11, H12, H14: OPC above 0x04, and ZERO ≠ 0. -/
theorem test_decode_illegal :
    decodeWord 0x100000000005#45 = .illegal 0x00000005#32 ∧ decodeWord 0x100000000101#45 = .illegal 0x00000101#32 ∧
      decodeWord 0x1000FFFFFFFF#45 = .illegal 0xFFFFFFFF#32 := by decide

/-- WR ‖ ADDR ‖ DATA bit by bit: `WR L_SEG_MAX, 16` (95_test_vectors.md P1 line 6). -/
theorem test_decode_wr :
    decodeWord (0b1#1 ++ 0b000000010110#12 ++ 0b00000000000000000000000000010000#32) = .wr 0x016#12 16#32 := by decide

/-- The same for a read, whose DATA field may hold anything (95_test_vectors.md V9 H20). -/
theorem test_decode_rd :
    decodeWord (0b0#1 ++ 0b111111111111#12 ++ 0b00010010001101000101011001111000#32) = .rd 0xFFF#12 0x12345678#32 := by
  decide

/-- A number of more than 45 bits is no transaction word and is rejected by name (log 9). -/
theorem test_decode_rejects_a_wider_number :
    decode 0x200000000000 = .error .widerThanATransaction ∧
      decode 0x1FFFFFFFFFFF = .ok (.wr 0xFFF#12 0xFFFFFFFF#32) := ⟨rfl, rfl⟩

theorem test_decode_table_word :
    decodeTableWord 48 0x100000000002 = some .fenc ∧ decodeTableWord 48 0x200000000000 = none := by decide

/-- Lines of programs P1 and P6 of 95_test_vectors.md, as the assembler of 30_encoding.md R97 and R98 writes them. -/
theorem test_assembler_lines :
    asmTset 500000#32 80000000#32 875#32 = [0x10100007A120#45, 0x101104C4B400#45, 0x10120000036B#45] ∧
      asmTxbytes [0xAB#8] = [0x1100000000AB#45, 0x103400000001#45] ∧ asmCmd 3#32 = 0x100000000003#45 := by decide

/-! ### WellFormed: one ill-formed term for each check -/

theorem test_wellFormed_refuses_legal_command_as_illegal : (Instr.illegal 4#32).wellFormed = false := by decide

theorem test_wellFormed_refuses_write_to_cmd : (Instr.wr 0x000#12 7#32).wellFormed = false := by decide

theorem test_wellFormed_accepts :
    (Instr.illegal 5#32).wellFormed = true ∧ (Instr.wr 0x001#12 7#32).wellFormed = true := by decide

/-! ### States and answers the tests use -/

/-- The state an instruction leads to. -/
def after (i : Instr) (s : State) : State :=
  match exec i s with
  | .next t => t
  | .fault _ => s
  | .refused _ => s

theorem exec_after (i : Instr) (s : State) : exec i s = .next (after i s) := by
  obtain ⟨t, h⟩ := exec_completes i s
  simp only [after, h]

/-- The reset state with the operands of TCALC loaded. -/
def timingState (b f sp brpMax segMin segMax sjwMax : Word) (maxLegal : Bool) : State :=
  { State.reset with regs := { Regs.reset with
      tBitrate := b, tClockHz := f, tSamplePoint := sp, lBrpMax := brpMax, lSegMin := segMin, lSegMax := segMax,
      lSjwMax := sjwMax, lSjwMaxLegal := maxLegal } }

/-- BT_* and T_STATUS. -/
def timingRow (s : State) : List Nat :=
  [s.regs.btPropSeg.toNat, s.regs.btPhaseSeg1.toNat, s.regs.btPhaseSeg2.toNat, s.regs.btSjw.toNat,
   s.regs.btBrp.toNat, s.regs.btTq.toNat, s.regs.tStatus.word.toNat]

/-- The reset state with a TX frame loaded. -/
def txState (hwTs : Bool) (echoId canId : Word) (channel : Byte) (flags : Byte) (data : List Byte) (ts : Word) :
    State :=
  { State.reset with
    regs := { Regs.reset with
      cfgHwTs := hwTs, txEchoId := echoId, txCanId := canId, txChannel := channel, txFlags := .ofByte flags,
      txLen := BitVec.ofNat 8 data.length, txTs := ts }
    mem := Memory.writeBytes [] 0x100 data }

/-- E_STATUS, and the TXW bytes below TXW_LEN. -/
def wireRow (s : State) : Nat × List Byte :=
  (s.regs.eStatus.word.toNat, s.mem.readBytes 0x180 s.regs.txwLen.toNat)

/-- The reset state with a packet loaded. -/
def rxState (hwTs : Bool) (packet : List Byte) : State :=
  { State.reset with
    regs := { Regs.reset with cfgHwTs := hwTs, rxwLen := BitVec.ofNat 8 packet.length }
    mem := Memory.writeBytes [] 0x200 packet }

/-- D_STATUS, RX_ECHO_ID, RX_CAN_ID, RX_CHANNEL, RX_FLAGS, RX_LEN and RX_TS, then the RX_DATA bytes below RX_LEN. -/
def frameRow (s : State) : List Nat × List Byte :=
  ([s.regs.dStatus.word.toNat, s.regs.rxEchoId.toNat, s.regs.rxCanId.toNat, s.regs.rxChannel.toNat,
    s.regs.rxFlags.byte.toNat, s.regs.rxLen.toNat, s.regs.rxTs.toNat], s.mem.readBytes 0x280 s.regs.rxLen.toNat)

/-- The packet of 95_test_vectors.md V7 row D1: classic, three data bytes, from the bus. -/
def packetD1 : List Byte :=
  [0xFF#8, 0xFF#8, 0xFF#8, 0xFF#8, 0x23#8, 1#8, 0#8, 0#8, 3#8, 0#8, 0#8, 0#8, 1#8, 2#8, 3#8, 0#8, 0#8, 0#8, 0#8, 0#8]

/-- The packet of row D14: a classic frame with flag bits, a reserved byte and pad bytes to be ignored. -/
def packetD14 : List Byte :=
  [0xFF#8, 0xFF#8, 0xFF#8, 0xFF#8, 0x55#8, 5#8, 0#8, 0#8, 2#8, 1#8, 0x0C#8, 0x99#8, 0xAA#8, 0xBB#8, 0xCC#8, 0xDD#8,
   0xEE#8, 0xFF#8, 0x11#8, 0x22#8]

/-- The packet of row E2 and D2: FD with 10 data bytes in an area of 12, and a timestamp. -/
def packetD2 : List Byte :=
  [1#8, 0#8, 0#8, 0#8, 0x10#8, 0xF1#8, 0xDA#8, 0x98#8, 9#8, 0#8, 6#8, 0#8, 0xA0#8, 0xA1#8, 0xA2#8, 0xA3#8, 0xA4#8,
   0xA5#8, 0xA6#8, 0xA7#8, 0xA8#8, 0xA9#8, 0#8, 0#8, 4#8, 3#8, 2#8, 1#8]

/-- The TX frame of row E1: classic, three data bytes. -/
def stateE1 : State := txState false 0#32 0x123#32 0#8 0#8 [1#8, 2#8, 3#8] 0#32

/-- The TX frame of row E2: FD with BRS, ten data bytes, and a timestamp. -/
def stateE2 : State :=
  txState true 1#32 0x98DAF110#32 0#8 6#8
    [0xA0#8, 0xA1#8, 0xA2#8, 0xA3#8, 0xA4#8, 0xA5#8, 0xA6#8, 0xA7#8, 0xA8#8, 0xA9#8] 0x01020304#32

/-! ### One step of each instruction -/

/-- 95_test_vectors.md V1, 1 Mbit/s at 40 MHz, policy 1. -/
theorem test_tcalc_nominal :
    timingRow (after .tcalc (timingState 1000000#32 40000000#32 875#32 1024#32 1#32 16#32 4#32 true)) =
      [1, 16, 2, 2, 2, 20, 0x01] := by decide

/-- 40_timing.md R121 example 3: two splits tie and the smaller `T1` wins; V4: 10 Mbit/s fails at 80 MHz. -/
theorem test_tcalc_tie_and_failure :
    timingRow (after .tcalc (timingState 1000000#32 10000000#32 750#32 1024#32 1#32 16#32 4#32 false)) =
        [1, 6, 2, 1, 1, 10, 0x01] ∧
      timingRow (after .tcalc (timingState 10000000#32 80000000#32 750#32 1#32 1#32 2#32 1#32 false)) =
        [0, 0, 0, 0, 0, 0, 0x12] := by decide

/-- 95_test_vectors.md V3: the parameter `SYNC_IN_SP = 1` gives the other choice. -/
theorem test_search_with_sync :
    (computeTiming 1 (timingOperands (timingState 1000000#32 40000000#32 875#32 1024#32 1#32 16#32 4#32 false))) =
      some ⟨1, 5, 1, 1, 5, 8⟩ := by decide

/-- V6 row E2. -/
theorem test_fenc_fd_with_timestamp : wireRow (after .fenc stateE2) = (0x01, packetD2) := by decide

/-- V6 rows E3 and E7: a classic frame's flags byte is 0, and nine classic bytes are refused. -/
theorem test_fenc_classic :
    wireRow (after .fenc (txState true 0x11223344#32 0xDFFFFFFF#32 0xFF#8 0x0C#8 [] 5#32)) =
        (0x01, [0x44#8, 0x33#8, 0x22#8, 0x11#8, 0xFF#8, 0xFF#8, 0xFF#8, 0xDF#8, 0#8, 0xFF#8, 0#8, 0#8, 0#8, 0#8, 0#8,
          0#8, 0#8, 0#8, 0#8, 0#8, 5#8, 0#8, 0#8, 0#8]) ∧
      wireRow (after .fenc (txState false 0#32 0#32 0#8 0#8 [0#8, 1#8, 2#8, 3#8, 4#8, 5#8, 6#8, 7#8, 8#8] 0#32)) =
        (0x22, []) := by decide

/-- V7 rows D2 and D14. -/
theorem test_fdec_accepts :
    frameRow (after .fdec (rxState true packetD2)) =
        ([0x09, 1, 0x98DAF110, 0, 6, 12, 0x01020304],
          [0xA0#8, 0xA1#8, 0xA2#8, 0xA3#8, 0xA4#8, 0xA5#8, 0xA6#8, 0xA7#8, 0xA8#8, 0xA9#8, 0#8, 0#8]) ∧
      frameRow (after .fdec (rxState false packetD14)) = ([0x05, 0xFFFFFFFF, 0x555, 1, 0, 2, 0], [0xAA#8, 0xBB#8]) := by
  decide

/-- V7 rows D3, D10 and D11: the length check. -/
theorem test_fdec_checks_the_length :
    (after .fdec (rxState false packetD2)).regs.dStatus.word = 0x22#32 ∧
      (after .fdec (rxState true packetD1)).regs.dStatus.word = 0x22#32 ∧
      (after .fdec (rxState false (packetD1 ++ [0x11#8, 0x22#8, 0x33#8, 0x44#8]))).regs.dStatus.word = 0x22#32 := by
  decide

/-- V9 rows H3 to H5: a register keeps its implemented bits. -/
theorem test_wr_keeps_implemented_bits :
    readReg .txLen (after (.wr 0x034#12 0x1FF#32) State.reset) = 0xFF#32 ∧
      readReg .cfg (after (.wr 0x001#12 0xFFFFFFFF#32) State.reset) = 1#32 ∧
      readReg .txFlags (after (.wr 0x033#12 0xFF#32) State.reset) = 0x0E#32 := by decide

/-- V9 rows H7 and H9: an RO register and an unassigned number. -/
theorem test_wr_refused :
    (after (.wr 0x024#12 5#32) State.reset).regs = { Regs.reset with fault := ⟨false, true, 4#4⟩ } ∧
      (after (.wr 0x2C0#12 0xDEADBEEF#32) State.reset).mem = [] := by decide

/-- V9 rows H8 and H10: a read of an unassigned number, and of CMD. -/
theorem test_rd_unassigned_and_cmd :
    ((after (.rd 0x013#12 0#32) State.reset).returned, (after (.rd 0x013#12 0#32) State.reset).regs.fault.word) =
        ([0#32], 0x42#32) ∧
      after (.rd 0x000#12 0#32) State.reset = { State.reset with returned := [0#32] } := by decide

/-- V9 row H14: both flags, CODE of the latest fault. -/
theorem test_illegal_after_a_refused_write :
    (after (.illegal 0xFFFFFFFF#32) (after (.wr 0x024#12 5#32) State.reset)).regs.fault.word = 0x33#32 := by decide

/-- V9 row H19. -/
theorem test_clr : after .clr (after .fenc stateE2) = State.reset := by decide

/-- V9 row H15. -/
theorem test_nop : after .nop stateE2 = stateE2 := by decide

/-- 95_test_vectors.md P1: the BITTIMING payload (20_memory.md R62). -/
theorem test_bit_timing_image :
    bitTimingImage (after .tcalc (timingState 500000#32 80000000#32 875#32 1024#32 1#32 16#32 4#32 false)) =
      [1#8, 0#8, 0#8, 0#8, 0x0D#8, 0#8, 0#8, 0#8, 1#8, 0#8, 0#8, 0#8, 1#8, 0#8, 0#8, 0#8, 0x0A#8, 0#8, 0#8, 0#8] := by
  decide

/-- The word placed by `withFetchWord` is the one the next step performs (V9 row H17). -/
theorem test_step_runs_the_fetched_word :
    step (State.reset.withFetchWord 48 0x100000000002) = exec .fenc State.reset := rfl

/-! ### Each statement's hypotheses are met: reset, the port and the step -/

theorem witness_every_register_reads_zero :
    regAt 0x000#12 = some .cmd ∧ regAt 0x046#12 = some .rxwLen ∧ regAt 0x100#12 = some (.element .txData 0) ∧
      regAt 0x2BF#12 = some (.element .rxData 63) := by decide

/-- A word on the port before a second event, and the instruction it decodes to. -/
theorem witness_step_performs :
    ({ stateE1 with pending := [.transaction 0x10100007A120#45, .reset] } : State).pending =
        .transaction 0x10100007A120#45 :: [.reset] ∧
      decodeWord 0x10100007A120#45 = .wr 0x010#12 500000#32 := by decide

theorem witness_reset_input :
    ({ stateE1 with pending := [.reset, .transaction 0x100000000002#45] } : State).pending =
      .reset :: [.transaction 0x100000000002#45] := rfl

theorem witness_nothing_pending : stateE1.pending = [] := rfl

/-- A write and a read on the port, and what they return. -/
theorem witness_every_transaction_completes :
    wrField 0x100000000002#45 = 1#1 ∧ (after .fenc stateE1).returned = [] ∧
      wrField 0x003400000000#45 = 0#1 ∧ (after (decodeWord 0x003400000000#45) stateE1).returned = [3#32] := by decide

/-! ### Encoding and the register space -/

theorem witness_decode_inverts_encode :
    Instr.fdec.wellFormed = true ∧ (Instr.illegal 5#32).wellFormed = true ∧ (Instr.wr 0x001#12 0#32).wellFormed = true ∧
      (Instr.rd 0x000#12 0xFFFFFFFF#32).wellFormed = true := by decide

/-- Both ends of every unassigned range. -/
theorem witness_address_map_unassigned :
    ([0x006#12, 0x00F#12, 0x013#12, 0x019#12, 0x01F#12, 0x026#12, 0x02F#12, 0x037#12, 0x03F#12, 0x047#12,
      0x0FF#12, 0x140#12, 0x17F#12, 0x1D0#12, 0x1FF#12, 0x250#12, 0x27F#12, 0x2C0#12, 0xFFF#12] : List RegNum).filter
      (fun a => (regAt a).isSome) = [] := by decide +kernel

/-- The last element of each buffer, `i` at the greatest value of its range. -/
theorem witness_address_map_last_elements :
    regAt (BitVec.ofNat 12 (0x100 + 63)) = some (.element .txData 63) ∧
      regAt (BitVec.ofNat 12 (0x180 + 79)) = some (.element .txw 79) ∧
      regAt (BitVec.ofNat 12 (0x200 + 79)) = some (.element .rxw 79) ∧
      regAt (BitVec.ofNat 12 (0x280 + 63)) = some (.element .rxData 63) := by decide

/-- The assigned numbers beside them. -/
theorem witness_address_map_assigned :
    ([0x000#12, 0x005#12, 0x010#12, 0x012#12, 0x014#12, 0x018#12, 0x020#12, 0x025#12, 0x030#12, 0x036#12,
      0x040#12, 0x046#12, 0x100#12, 0x13F#12, 0x180#12, 0x1CF#12, 0x200#12, 0x24F#12, 0x280#12, 0x2BF#12] : List RegNum).map
      (fun a => (regAt a).map Reg.number) =
    [some 0x000, some 0x005, some 0x010, some 0x012, some 0x014, some 0x018, some 0x020, some 0x025,
      some 0x030, some 0x036, some 0x040, some 0x046, some 0x100, some 0x13F, some 0x180, some 0x1CF,
      some 0x200, some 0x24F, some 0x280, some 0x2BF] := by
  decide +kernel

/-- The clauses of a read: CMD, a scalar register, the last element of a buffer, and an unassigned number. -/
theorem witness_read_transaction :
    regAt 0x000#12 = some .cmd ∧ regAt 0x005#12 = some .fault ∧ regAt 0x1CF#12 = some (.element .txw 79) ∧
      regAt 0x1D0#12 = none := by decide

/-- The clauses of a write: the first and last elements of a host buffer and a scalar, then an RO and an unassigned
number. -/
theorem witness_write_transaction :
    (regAt 0x001#12 = some .cfg ∧ Reg.cfg.access = .rw) ∧
      (regAt 0x24F#12 = some (.element .rxw 79) ∧ (Reg.element .rxw 79).access = .rw) ∧
      stateE1.mem.wf = true ∧ (regAt 0x280#12).map Reg.access = some .ro ∧ regAt 0x006#12 = none := by decide

theorem witness_txbytes :
    stateE1.mem.wf = true ∧ ([] : List Byte).length ≤ 64 ∧ (List.replicate 64 0xFF#8).length ≤ 64 :=
  ⟨by decide, by decide, by decide⟩

/-- Both ways a command word is illegal, at the least values. -/
theorem witness_illegal_command :
    (0x100#32).toNat / 256 ≠ 0 ∧ (5#32).toNat % 256 > 4 ∧ (0xFFFFFFFF#32).toNat / 256 ≠ 0 := by decide

/-! ### Unit T -/

/-- The smallest case of 95_test_vectors.md V5: four quanta. -/
def smallTiming : State := timingState 1#32 4#32 500#32 1#32 1#32 1#32 1#32 false

theorem witness_search_lists_the_candidates :
    1 ≤ (timingOperands smallTiming).lo ∧ (candidates (timingOperands smallTiming)).length = 1 := by decide

/-- Both clauses: a legal segment range at its least and greatest count, and an empty range. -/
theorem witness_quanta_counts :
    (splits (timingOperands smallTiming) 1 4 ≠ [] ∧ splits (timingOperands smallTiming) 1 5 = []) ∧
      (timingOperands (timingState 1#32 4#32 500#32 1#32 17#32 16#32 1#32 false)).hi <
        (timingOperands (timingState 1#32 4#32 500#32 1#32 17#32 16#32 1#32 false)).lo := by decide

theorem witness_tcalc_has_a_candidate :
    IsCandidate (timingOperands smallTiming) ⟨1, 4, 2, 1⟩ ∧
      IsCandidate (timingOperands (timingState 500000#32 80000000#32 750#32 1024#32 1#32 16#32 4#32 true))
        ⟨8, 20, 15, 4⟩ := by decide

theorem witness_tcalc_has_no_candidate : ¬∃ c, IsCandidate (timingOperands State.reset) c := by
  rintro ⟨c, ⟨h₁, h₂, -⟩, -⟩
  exact absurd (Nat.le_trans h₁ h₂) (by decide)

theorem witness_tcalc_result_is_exact :
    exec .tcalc smallTiming = .next (after .tcalc smallTiming) ∧ (after .tcalc smallTiming).regs.tStatus.ok = true :=
  ⟨exec_after _ _, by decide⟩

/-- Each degenerate operand, at its boundary (95_test_vectors.md V5). -/
theorem witness_degenerate_operands :
    (timingState 0#32 4#32 0#32 1#32 1#32 1#32 1#32 false).regs.tBitrate = 0#32 ∧
      (timingState 1#32 0#32 0#32 1#32 1#32 1#32 1#32 false).regs.tClockHz = 0#32 ∧
      (timingState 1#32 4#32 0#32 0#32 1#32 1#32 1#32 false).regs.lBrpMax = 0#32 ∧
      (timingState 1#32 4#32 0#32 1#32 1#32 0#32 1#32 false).regs.lSegMax = 0#32 ∧
      (timingState 1#32 4#32 0#32 1#32 17#32 16#32 1#32 false).regs.lSegMax.toNat <
        (timingState 1#32 4#32 0#32 1#32 17#32 16#32 1#32 false).regs.lSegMin.toNat ∧
      (timingState 5#32 4#32 0#32 1#32 1#32 1#32 1#32 false).regs.tClockHz.toNat <
        (timingState 5#32 4#32 0#32 1#32 1#32 1#32 1#32 false).regs.tBitrate.toNat ∧
      (timingState 2#32 5#32 0#32 1#32 1#32 1#32 1#32 false).regs.tClockHz.toNat %
        (timingState 2#32 5#32 0#32 1#32 1#32 1#32 1#32 false).regs.tBitrate.toNat ≠ 0 := by decide

/-- The smallest case with another TX frame, an older result and other memory beside the same eight operands. -/
def smallTiming' : State :=
  { smallTiming with regs := { smallTiming.regs with txCanId := 7#32, btTq := 9#32 }, mem := [(0x100, 7#8)] }

theorem witness_tcalc_reads_only_its_operands :
    smallTiming.regs.tBitrate = smallTiming'.regs.tBitrate ∧ smallTiming.regs.tClockHz = smallTiming'.regs.tClockHz ∧
      smallTiming.regs.tSamplePoint = smallTiming'.regs.tSamplePoint ∧
      smallTiming.regs.lBrpMax = smallTiming'.regs.lBrpMax ∧ smallTiming.regs.lSegMin = smallTiming'.regs.lSegMin ∧
      smallTiming.regs.lSegMax = smallTiming'.regs.lSegMax ∧ smallTiming.regs.lSjwMax = smallTiming'.regs.lSjwMax ∧
      smallTiming.regs.lSjwMaxLegal = smallTiming'.regs.lSjwMaxLegal ∧ smallTiming ≠ smallTiming' ∧
      (after .tcalc smallTiming).regs.tStatus.ok = true := by decide

theorem witness_tcalc_reads_only_its_operands_completes :
    exec .tcalc smallTiming = .next (after .tcalc smallTiming) ∧
      exec .tcalc smallTiming' = .next (after .tcalc smallTiming') := ⟨exec_after _ _, exec_after _ _⟩

/-! ### Units E and D -/

/-- The bounds of the length clauses. -/
theorem witness_length_codes :
    (0 ≤ 64 ∧ 64 ≤ 64 ∧ 0 < len2dlc 9 ∧ 0 ≤ 15 ∧ 15 ≤ 15) ∧ len2dlc 64 = 15 ∧ len2dlc 0 = 0 ∧ len2dlc 9 = 9 := by decide

/-- A classic frame of 8 bytes and an FD frame of 64, the longest accepted of each. -/
theorem witness_frame_accepted :
    stateE1.mem.wf = true ∧ FrameAccepted stateE1 ∧
      FrameAccepted (txState false 0#32 0#32 0#8 0#8 (List.replicate 8 0xFF#8) 0#32) ∧
      (txState true 0#32 0#32 0#8 2#8 (List.replicate 64 0xFF#8) 0#32).mem.wf = true ∧
      FrameAccepted (txState true 0#32 0#32 0#8 2#8 (List.replicate 64 0xFF#8) 0#32) := by decide

/-- One byte more is refused, of either variant. -/
def longClassic : State := txState false 0#32 0#32 0#8 0#8 (List.replicate 9 0#8) 0#32

def longFd : State := txState false 0#32 0#32 0#8 2#8 (List.replicate 65 0#8) 0#32

theorem witness_frame_refused :
    (longClassic.regs.txFlags.fd = false ∧ 8 < longClassic.regs.txLen.toNat) ∧
      (longFd.regs.txFlags.fd = true ∧ 64 < longFd.regs.txLen.toNat) := by decide

/-- The frame of row E1 with another timestamp (HW_TS is 0) and with data past its length (row E11). -/
def stateE1' : State :=
  { stateE1 with regs := { stateE1.regs with txTs := 9#32 }, mem := stateE1.mem.write 0x103 0xEE#8 }

theorem witness_fenc_reads_only_its_operands :
    stateE1.mem.wf = true ∧ stateE1'.mem.wf = true ∧ stateE1 ≠ stateE1' ∧
      { stateE1.regs with txTs := 9#32 } = stateE1'.regs ∧ stateE1.regs.cfgHwTs = false ∧
      (∀ i < stateE1.regs.txLen.toNat, stateE1.mem.read (0x100 + i) = stateE1'.mem.read (0x100 + i)) ∧
      (after .fenc stateE1).regs.eStatus.ok = true := by decide

theorem witness_fenc_reads_only_its_operands_completes :
    exec .fenc stateE1 = .next (after .fenc stateE1) ∧ exec .fenc stateE1' = .next (after .fenc stateE1') :=
  ⟨exec_after _ _, exec_after _ _⟩

/-- The shortest FD packet (row D6) and the longest (row D13). -/
def packetD6 : List Byte := List.replicate 10 0#8 ++ [2#8, 0#8]

def packetD13 : List Byte :=
  [0xFE#8, 0xFF#8, 0xFF#8, 0xFF#8, 0xFF#8, 0xFF#8, 0xFF#8, 0xFF#8, 0x0F#8, 7#8, 0xFF#8, 0x5A#8]
    ++ List.replicate 64 0x77#8 ++ [0x78#8, 0x56#8, 0x34#8, 0x12#8]

theorem witness_packet_accepted :
    (rxState false packetD14).mem.wf = true ∧ PacketAccepted (rxState false packetD14) ∧
      (rxState false packetD6).mem.wf = true ∧ PacketAccepted (rxState false packetD6) ∧
      (rxState true packetD13).mem.wf = true ∧ PacketAccepted (rxState true packetD13) := by decide

/-- Each of the four checks fails at its boundary: rows D4, D7, D8 (and D9) and D10. -/
theorem witness_packet_refused :
    ¬PacketAccepted (rxState false (List.replicate 11 0#8)) ∧
      ¬PacketAccepted (rxState false (List.replicate 81 0#8)) ∧
      ¬PacketAccepted (rxState false (List.replicate 8 0#8 ++ [9#8] ++ List.replicate 11 0#8)) ∧
      ¬PacketAccepted (rxState false (List.replicate 8 0#8 ++ [16#8, 0#8, 2#8] ++ List.replicate 9 0#8)) ∧
      ¬PacketAccepted (rxState true packetD1) := by decide

/-- The packet of row D14 with its ignored bytes and bits cleared, and one byte past the packet. -/
def packetD14' : List Byte :=
  [0xFF#8, 0xFF#8, 0xFF#8, 0xFF#8, 0x55#8, 5#8, 0#8, 0#8, 2#8, 1#8, 0#8, 0#8, 0xAA#8, 0xBB#8, 0#8, 0#8, 0#8, 0#8, 0#8,
   0#8]

def stateD14' : State :=
  { rxState false packetD14' with mem := (rxState false packetD14').mem.write 0x214 0x42#8 }

theorem witness_packets_agree :
    (rxState false packetD14).mem.wf = true ∧ stateD14'.mem.wf = true ∧
      PacketsAgree (rxState false packetD14) stateD14' ∧ rxState false packetD14 ≠ stateD14' ∧
      (after .fdec (rxState false packetD14)).regs.dStatus.ok = true := by decide

/-- The same for an FD packet: row D2 against one with its reserved bits and byte set. -/
theorem witness_packets_agree_fd :
    PacketsAgree (rxState true packetD2)
      { rxState true packetD2 with mem := ((rxState true packetD2).mem.write 0x20A 0xF7#8).write 0x20B 0x5A#8 } := by
  decide

theorem witness_packets_agree_completes :
    exec .fdec (rxState false packetD14) = .next (after .fdec (rxState false packetD14)) ∧
      exec .fdec stateD14' = .next (after .fdec stateD14') := ⟨exec_after _ _, exec_after _ _⟩

theorem witness_idempotent :
    Instr.fdec ∈ [Instr.tcalc, .fenc, .fdec] ∧ (rxState true packetD2).mem.wf = true ∧
      exec .fdec (rxState true packetD2) = .next (after .fdec (rxState true packetD2)) :=
  ⟨by decide, by decide, exec_after _ _⟩

/-- Both variants of the codec's premise, at the longest length of each. -/
theorem witness_codec_round_trip :
    (¬(txFrame (txState false 0#32 0#32 0#8 0#8 (List.replicate 8 1#8) 0#32)).flags.fd = true ∧
        (txFrame (txState false 0#32 0#32 0#8 0#8 (List.replicate 8 1#8) 0#32)).len.toNat ≤ 8) ∧
      ((txFrame (txState false 0#32 0#32 0#8 2#8 (List.replicate 64 1#8) 0#32)).flags.fd = true ∧
        (txFrame (txState false 0#32 0#32 0#8 2#8 (List.replicate 64 1#8) 0#32)).len.toNat ∈ Config.fdLengths) := by
  decide

theorem witness_round_trip :
    stateE1.mem.wf = true ∧ FrameCanonical stateE1 ∧
      FrameCanonical (txState true 0#32 0#32 0#8 6#8 (List.replicate 12 1#8) 5#32) := by decide

/-- A non-canonical length: 9 and 63, the least and the greatest. -/
theorem witness_non_canonical_length :
    ∀ n ∈ [9, 63],
      (txState true 0#32 0#32 0#8 2#8 (List.replicate n 1#8) 0#32).regs.txFlags.fd = true ∧
        9 ≤ (txState true 0#32 0#32 0#8 2#8 (List.replicate n 1#8) 0#32).regs.txLen.toNat ∧
        (txState true 0#32 0#32 0#8 2#8 (List.replicate n 1#8) 0#32).regs.txLen.toNat ≤ 63 ∧
        (txState true 0#32 0#32 0#8 2#8 (List.replicate n 1#8) 0#32).regs.txLen.toNat ∉ Config.fdLengths ∧
        (txState true 0#32 0#32 0#8 2#8 (List.replicate n 1#8) 0#32).mem.wf = true := by decide

/-! ### The invariants and the rules over every instruction -/

/-- A state after all three units have run, with a refused access pending. -/
def workedState : State :=
  { after .fdec (rxState true packetD2) with pending := [.transaction 0x0FFF12345678#45] }

theorem step_of_transaction {s : State} {w : TxnWord} {rest : List PortEvent} (h : s.pending = .transaction w :: rest) :
    step s = .next (after (decodeWord w) { s with pending := rest }) := by
  simp only [step, takeEvent, h, exec_after]

theorem witness_memory_and_rx_frame_stay_legal :
    MemoryLegal workedState.mem ∧ RxFrameLegal workedState ∧ StatusLegal workedState.regs := by decide

theorem witness_tx_wire_stays_legal :
    MemoryLegal (after .fenc stateE2).mem ∧ TxWireLegal (after .fenc stateE2) := by decide

theorem witness_bit_timing_stays_sound :
    BitTimingLegal (after .tcalc smallTiming).regs ∧ SoundBitTiming (after .tcalc smallTiming).regs ∧
      BitTimingLegal Regs.reset := by decide

theorem witness_legal_states_step :
    step workedState = .next (after (decodeWord 0x0FFF12345678#45) { workedState with pending := [] }) :=
  step_of_transaction (w := 0x0FFF12345678#45) (rest := []) (by decide)

/-- Every instruction but the one set apart, in a state where it completes. -/
theorem witness_only_their_unit_writes :
    exec .fdec (rxState true packetD2) = .next (after .fdec (rxState true packetD2)) ∧ Instr.fdec ≠ .clr ∧
      Instr.fdec ≠ .tcalc ∧ Instr.fdec ≠ .fenc ∧ exec .fenc stateE2 = .next (after .fenc stateE2) ∧
      Instr.fenc ≠ .clr ∧ Instr.fenc ≠ .fdec ∧ ∀ a d, Instr.fenc ≠ .wr a d :=
  ⟨exec_after _ _, by decide, by decide, by decide, exec_after _ _, by decide, by decide, fun _ _ h => by cases h⟩

/-- A state with both FAULT flags set, and a word that is not CLR. -/
def faultyState : State :=
  { after (.illegal 5#32) (after (.wr 0x024#12 5#32) State.reset) with pending := [.transaction 0x100000000002#45] }

theorem witness_fault_flags_are_sticky :
    faultyState.pending = .transaction 0x100000000002#45 :: [] ∧ 0x100000000002#45 ≠ 0x100000000004#45 ∧
      faultyState.regs.fault.illcmd = true ∧ faultyState.regs.fault.badacc = true := by decide

theorem witness_fault_flags_are_sticky_step :
    step faultyState = .next (after (decodeWord 0x100000000002#45) { faultyState with pending := [] }) :=
  step_of_transaction (w := 0x100000000002#45) (rest := []) (by decide)

/-- Both clauses, and both kinds of violation. -/
theorem witness_fault_records :
    (keepsContract (.wr 0x001#12 1#32) = true ∧ (Instr.wr 0x001#12 1#32).wellFormed = true) ∧
      (keepsContract (.illegal 5#32) = false ∧ (Instr.illegal 5#32).wellFormed = true) ∧
      (keepsContract (.wr 0x024#12 5#32) = false ∧ (Instr.wr 0x024#12 5#32).wellFormed = true) ∧
      (keepsContract (.rd 0x006#12 0#32) = false ∧ (Instr.rd 0x006#12 0#32).wellFormed = true) := by decide

/-- A run of one illegal command, a reset that clears it, and a second one. -/
def faultyRun : State :=
  { State.reset with pending := [.transaction 0x100000000005#45, .reset, .transaction 0x100000000101#45] }

/-- The state the run ends in. -/
def faultyEnd : State :=
  after (.illegal 0x101#32) { after .clr (after (.illegal 5#32) { faultyRun with pending := [] }) with pending := [] }

theorem witness_faulty_run :
    faultyRun.regs.fault.word = 0#32 ∧ faultyEnd.regs.fault.word ≠ 0#32 := by decide

theorem witness_faulty_run_runs :
    Sys2Proof.core.run faultyRun.pending.length faultyRun = .next faultyEnd := rfl

/-- Two commands of different threads, and a read of one thread beside a write of another. -/
theorem witness_threads :
    stateE1.mem.wf = true ∧ instrThread .fenc = some .transmit ∧ instrThread .fdec = some .receive ∧
      instrThread (.rd 0x1CF#12 0#32) = some .transmit ∧ instrThread (.wr 0x200#12 7#32) = some .receive ∧
      instrThread (.wr 0x010#12 7#32) = some .timing := by decide

end Sys2Proof.Tests
end

section
/-! PROOFS. Unit T: what the search finds and what a successful TCALC leaves in BT_* (10_state.md R33). -/

namespace Sys2Proof.Machine

open Sys2Proof.Safety

/-- The lower segment bound is never 0 (40_timing.md R102). -/
theorem one_le_timingOperands_lo (s : State) : 1 ≤ (timingOperands s).lo := Nat.le_max_left ..

/-! ### The search -/

/-- The splits of a quanta count by the conditions of 40_timing.md R105: with `1 ≤ lo` no bound of R115 is lost to the
subtractions of `splits`. -/
theorem mem_splits_iff_legal {o : TimingOperands} {brp q : Nat} {c : Candidate} (hlo : 1 ≤ o.lo) :
    c ∈ splits o brp q ↔
      c.brp = brp ∧ c.q = q ∧ c.t1 + c.ps2 + 1 = q ∧ (2 * o.lo ≤ c.t1 ∧ c.t1 ≤ o.lo + o.hi) ∧
        (o.lo ≤ c.ps2 ∧ c.ps2 ≤ o.hi) := by
  rw [mem_splits]
  omega

/-- A prescaler with a positive quanta count lies below the end of the outer loop (40_timing.md R116). -/
theorem brp_le_of_quanta_pos {o : TimingOperands} {brp : Nat} (hd : brp * o.bitrate ≠ 0)
    (hq : 1 ≤ o.clockHz / (brp * o.bitrate)) : brp ≤ o.clockHz / o.bitrate := by
  have hd' : brp * o.bitrate ≤ o.clockHz := by
    simpa using (Nat.le_div_iff_mul_le (Nat.pos_of_ne_zero hd)).1 hq
  exact (Nat.le_div_iff_mul_le (Nat.pos_of_ne_zero (Nat.ne_zero_of_mul_ne_zero_right hd))).2 hd'

/-- The search lists exactly the candidates of 40_timing.md R105. -/
theorem mem_candidates_iff {o : TimingOperands} {c : Candidate} (hlo : 1 ≤ o.lo) :
    c ∈ candidates o ↔ IsCandidate o c := by
  simp only [candidates, List.mem_flatMap, mem_ascending, mem_candidatesAt, quanta_eq_some,
    mem_splits_iff_legal hlo, IsCandidate]
  constructor
  · rintro ⟨_, ⟨hfirst, hlast⟩, _, ⟨hd, hmod, hq⟩, rfl, rfl, hsplit⟩
    exact ⟨⟨hfirst, Nat.le_trans hlast (Nat.min_le_left ..), hd, hmod, hq⟩, hsplit⟩
  · rintro ⟨⟨hfirst, hmax, hd, hmod, hq⟩, hsplit, ht1, hps2⟩
    have hpos : 1 ≤ o.clockHz / (c.brp * o.bitrate) := by omega
    exact ⟨c.brp, ⟨hfirst, Nat.le_min.2 ⟨hmax, brp_le_of_quanta_pos hd hpos⟩⟩, c.q, ⟨hd, hmod, hq⟩, rfl, rfl, hsplit,
      ht1, hps2⟩

/-- One step of the scan leaves `best` or takes the new candidate. -/
theorem keepBest_cases (sync sp : Nat) (best : Option Candidate) (c : Candidate) :
    keepBest sync sp best c = best ∨ keepBest sync sp best c = some c := by
  cases best with
  | none => exact .inr (keepBest_none ..)
  | some b =>
    obtain ⟨h, -⟩ | ⟨h, -⟩ := keepBest_some sync sp b c
    · exact .inr h
    · exact .inl h

/-- A scan ends with what it began with or with a candidate it met. -/
theorem foldl_keepBest_mem {sync sp : Nat} {best : Option Candidate} {cs : List Candidate} {c : Candidate}
    (h : cs.foldl (keepBest sync sp) best = some c) : best = some c ∨ c ∈ cs := by
  induction cs generalizing best with
  | nil => exact .inl h
  | cons x xs ih =>
    obtain hbest | hmem := ih h
    · obtain hkeep | hkeep := keepBest_cases sync sp best x
      · exact .inl (hkeep ▸ hbest)
      · have hx : some x = some c := hkeep ▸ hbest
        exact .inr (by simpa using .inl (Option.some.inj hx).symm)
    · exact .inr (List.mem_cons_of_mem x hmem)

/-- The candidate TCALC chooses is one. -/
theorem isCandidate_of_chooseCandidate {sync : Nat} {o : TimingOperands} {c : Candidate} (hlo : 1 ≤ o.lo)
    (h : chooseCandidate sync o = some c) : IsCandidate o c := by
  obtain hnone | hmem := foldl_keepBest_mem h
  · cases hnone
  · exact (mem_candidates_iff hlo).1 hmem

/-! ### The fields of the result -/

/-- 10_state.md R33 of a BitTiming computed from `o`; the clock is not 0, so that `tq` is bounded by it. -/
structure BitTiming.IsExact (o : TimingOperands) (b : BitTiming) : Prop where
  tq_eq : b.tq = b.propSeg + b.phaseSeg1 + b.phaseSeg2 + 1
  clockHz_eq : o.clockHz = b.brp * o.bitrate * b.tq
  clockHz_pos : 0 < o.clockHz
  segments : ∀ f ∈ [b.propSeg, b.phaseSeg1, b.phaseSeg2], o.lo ≤ f ∧ f ≤ o.hi
  brp_bounds : 1 ≤ b.brp ∧ b.brp ≤ o.brpMax
  sjw_bounds : 1 ≤ b.sjw ∧ b.sjw ≤ min b.phaseSeg1 b.phaseSeg2

/-- A candidate's quanta are the clock exactly: its prescaler divides with no remainder (40_timing.md R103). -/
theorem clockHz_eq_of_isCandidate {o : TimingOperands} {c : Candidate} (h : IsCandidate o c) :
    o.clockHz = c.brp * o.bitrate * c.q := by
  obtain ⟨⟨_, _, _, hmod, hq⟩, _⟩ := h
  rw [hq, Nat.mul_div_cancel' (Nat.dvd_of_mod_eq_zero hmod)]

/-- Without a clock there is no candidate: neither factor of `clockHz_eq_of_isCandidate` is 0. -/
theorem clockHz_pos_of_isCandidate {o : TimingOperands} {c : Candidate} (h : IsCandidate o c) : 0 < o.clockHz := by
  rw [clockHz_eq_of_isCandidate h]
  obtain ⟨⟨_, _, hd, _, _⟩, hsplit, _⟩ := h
  exact Nat.mul_pos (Nat.pos_of_ne_zero hd) (by omega)

/-- A jump width is at least 1 and no longer than either phase segment (40_timing.md R111). -/
theorem jumpWidth_bounds (o : TimingOperands) {ps1 ps2 : Nat} (h1 : 1 ≤ ps1) (h2 : 1 ≤ ps2) :
    1 ≤ jumpWidth o ps1 ps2 ∧ jumpWidth o ps1 ps2 ≤ min ps1 ps2 := by
  unfold jumpWidth
  split <;> omega

/-- The fields of 40_timing.md R109 to R111 keep 10_state.md R33. -/
theorem bitTimingOf_isExact {o : TimingOperands} {c : Candidate} (hlo : 1 ≤ o.lo) (h : IsCandidate o c) :
    (bitTimingOf o c).IsExact o := by
  have hclock := clockHz_eq_of_isCandidate h
  have hpos := clockHz_pos_of_isCandidate h
  obtain ⟨⟨hbrp, hbrpMax, _⟩, hsplit, ht1, hps2⟩ := h
  constructor
  case tq_eq => simp only [bitTimingOf]; omega
  case clockHz_eq => exact hclock
  case clockHz_pos => exact hpos
  case segments =>
    simp only [bitTimingOf, List.forall_mem_cons]
    exact ⟨by omega, by omega, hps2, by simp⟩
  case brp_bounds => exact ⟨hbrp, hbrpMax⟩
  case sjw_bounds => exact jumpWidth_bounds o (by omega) (by omega)

/-- A result of the computation meets 10_state.md R33. -/
theorem computeTiming_isExact {sync : Nat} {o : TimingOperands} {b : BitTiming} (hlo : 1 ≤ o.lo)
    (h : computeTiming sync o = some b) : b.IsExact o := by
  obtain ⟨c, hc, rfl⟩ := Option.map_eq_some_iff.1 h
  exact bitTimingOf_isExact hlo (isCandidate_of_chooseCandidate hlo hc)

/-! ### The result in the 32-bit registers -/

/-- Every field fits its register: the prescaler is below its limit, the quanta count is at most the clock, and the
segments and the jump width are at most the quanta count. -/
theorem BitTiming.IsExact.fields_lt {s : State} {b : BitTiming} (h : b.IsExact (timingOperands s)) :
    ∀ f ∈ [b.propSeg, b.phaseSeg1, b.phaseSeg2, b.sjw, b.brp, b.tq], f < 2 ^ 32 := by
  have hbrp : b.brp < 2 ^ 32 := Nat.lt_of_le_of_lt h.brp_bounds.2 s.regs.lBrpMax.isLt
  have htq : b.tq < 2 ^ 32 :=
    Nat.lt_of_le_of_lt (Nat.le_of_dvd h.clockHz_pos (h.clockHz_eq ▸ Nat.dvd_mul_left ..)) s.regs.tClockHz.isLt
  have hsum := h.tq_eq
  have hsjw := h.sjw_bounds
  simp only [List.forall_mem_cons]
  exact ⟨by omega, by omega, by omega, by omega, hbrp, htq, by simp⟩

/-- BT_* as numbers. -/
def bitTimingIn (r : Regs) : BitTiming where
  propSeg := r.btPropSeg.toNat
  phaseSeg1 := r.btPhaseSeg1.toNat
  phaseSeg2 := r.btPhaseSeg2.toNat
  sjw := r.btSjw.toNat
  brp := r.btBrp.toNat
  tq := r.btTq.toNat

/-- Fields that fit their registers come back from BT_* unchanged. -/
theorem bitTimingIn_writeBitTiming {b : BitTiming} {s : State}
    (h : ∀ f ∈ [b.propSeg, b.phaseSeg1, b.phaseSeg2, b.sjw, b.brp, b.tq], f < 2 ^ 32) :
    bitTimingIn (writeBitTiming b s).regs = b := by
  simp only [List.forall_mem_cons] at h
  obtain ⟨hprop, hps1, hps2, hsjw, hbrp, htq, -⟩ := h
  simp only [bitTimingIn, writeBitTiming, BitVec.toNat_ofNat, Nat.mod_eq_of_lt, hprop, hps1, hps2, hsjw, hbrp, htq]

/-- A TCALC that ends with OK leaves in BT_* a BitTiming that is exact for the operands it read. -/
theorem bitTimingIn_isExact_of_execTcalc {s t : State} (h : exec .tcalc s = .next t)
    (hok : t.regs.tStatus.ok = true) : (bitTimingIn t.regs).IsExact (timingOperands s) := by
  obtain ⟨b, hb, rfl⟩ | ⟨-, rfl⟩ := execTcalc_cases h
  · have hexact := computeTiming_isExact (one_le_timingOperands_lo s) hb
    rwa [bitTimingIn_writeBitTiming hexact.fields_lt]
  · simp [UnitStatus.failure] at hok

/-- Settles O24: R33's relations hold of BT_* as numbers, with the operands as TCALC read them. -/
theorem tcalcResultIsExact : Obligations.TcalcResultIsExact := by
  intro s t h hok
  have hexact := bitTimingIn_isExact_of_execTcalc h hok
  exact ⟨hexact.tq_eq, hexact.clockHz_eq,
    fun f hf => hexact.segments f.toNat (List.mem_map_of_mem (f := BitVec.toNat) hf),
    hexact.brp_bounds, hexact.sjw_bounds⟩

end Sys2Proof.Machine
end

section
/-! PROOFS. The instruction list as a decoder: its rows field by field, and the first of them that matches a word
(30_encoding.md R83). -/

namespace Sys2Proof.Machine

/-! ### Words by their fields -/

/-- A word is its three fields (30_encoding.md R80). -/
theorem txnWord_fields (w : TxnWord) : txnWord (wrField w) (addrField w) (dataField w) = w := by
  rw [txnWord, wrField, addrField, dataField, BitVec.extractLsb'_append_extractLsb'_eq_extractLsb' (by decide),
    BitVec.extractLsb'_append_extractLsb'_eq_extractLsb' (by decide)]
  exact BitVec.extractLsb'_eq_self

@[simp] theorem wrField_txnWord (b : BitVec 1) (a : RegNum) (v : Word) : wrField (txnWord b a v) = b := by
  rw [wrField, txnWord, BitVec.extractLsb'_append_eq_of_le (by decide), BitVec.extractLsb'_append_eq_left]

@[simp] theorem addrField_txnWord (b : BitVec 1) (a : RegNum) (v : Word) : addrField (txnWord b a v) = a := by
  rw [addrField, txnWord, BitVec.extractLsb'_append_eq_of_le (by decide), BitVec.extractLsb'_append_eq_right]

@[simp] theorem dataField_txnWord (b : BitVec 1) (a : RegNum) (v : Word) : dataField (txnWord b a v) = v :=
  BitVec.extractLsb'_append_eq_right

theorem txnWord_inj {b b' : BitVec 1} {a a' : RegNum} {v v' : Word} :
    txnWord b a v = txnWord b' a' v' ↔ b = b' ∧ a = a' ∧ v = v' := by
  constructor
  · intro h
    exact ⟨by simpa using congrArg wrField h, by simpa using congrArg addrField h,
      by simpa using congrArg dataField h⟩
  · rintro ⟨rfl, rfl, rfl⟩
    rfl

theorem txnWord_and (b b' : BitVec 1) (a a' : RegNum) (v v' : Word) :
    txnWord b a v &&& txnWord b' a' v' = txnWord (b &&& b') (a &&& a') (v &&& v') := by
  rw [txnWord, txnWord, BitVec.and_append, BitVec.and_append, txnWord]

/-! ### The decoder by the fields -/

/-- 30_encoding.md R81 line 3. -/
theorem decodeWord_read (a : RegNum) (v : Word) : decodeWord (txnWord 0#1 a v) = .rd a v := by
  simp [decodeWord]

/-- 30_encoding.md R81 line 2. -/
theorem decodeWord_write {a : RegNum} (v : Word) (h : a ≠ 0#12) : decodeWord (txnWord 1#1 a v) = .wr a v := by
  simp [decodeWord, h]

/-- 30_encoding.md R81 line 1. -/
theorem decodeWord_commandWord (v : Word) : decodeWord (commandWord v) = decodeCommand v := by
  simp [decodeWord, commandWord]

/-- A command word with ZERO = 0 is its OPC (30_encoding.md R82). -/
theorem zeroField_eq_zero_iff {v : Word} : zeroField v = 0#24 ↔ v.toNat = (opcField v).toNat := by
  simp only [zeroField, opcField, ← BitVec.toNat_inj, BitVec.extractLsb'_toNat, BitVec.toNat_ofNat]
  omega

/-- The command words that name a command are the numbers 0 to 4 (43_host_access.md R174). -/
theorem decodeCommand_eq (v : Word) :
    decodeCommand v =
      if v = 0#32 then .nop else if v = 1#32 then .tcalc else if v = 2#32 then .fenc else if v = 3#32 then .fdec
      else if v = 4#32 then .clr else .illegal v := by
  unfold decodeCommand
  by_cases hz : zeroField v = 0#24
  · have hv := zeroField_eq_zero_iff.1 hz
    simp only [hz, ← BitVec.toNat_inj, hv]
    simp
  · have hcommand : ∀ k ∈ [0#32, 1#32, 2#32, 3#32, 4#32], zeroField k = 0#24 := by simp [zeroField]
    have hne : ∀ k ∈ [0#32, 1#32, 2#32, 3#32, 4#32], v ≠ k := fun k hk hv => hz (hv ▸ hcommand k hk)
    simp only [List.forall_mem_cons] at hne
    obtain ⟨h0, h1, h2, h3, h4, -⟩ := hne
    simp [*]

/-! ### The rows by the fields -/

/-- The rows of 30_encoding.md R83 with their fields apart: a command row fixes every bit, the catch-all row WR and
ADDR, and the last two rows WR alone. -/
theorem opcodeTable_eq :
    opcodeTable =
      [⟨"NOP", commandWord 0#32, txnWord 1#1 0xFFF#12 0xFFFFFFFF#32⟩,
       ⟨"TCALC", commandWord 1#32, txnWord 1#1 0xFFF#12 0xFFFFFFFF#32⟩,
       ⟨"FENC", commandWord 2#32, txnWord 1#1 0xFFF#12 0xFFFFFFFF#32⟩,
       ⟨"FDEC", commandWord 3#32, txnWord 1#1 0xFFF#12 0xFFFFFFFF#32⟩,
       ⟨"CLR", commandWord 4#32, txnWord 1#1 0xFFF#12 0xFFFFFFFF#32⟩,
       ⟨"ILLEGAL", commandWord 0#32, txnWord 1#1 0xFFF#12 0#32⟩,
       ⟨"WR", txnWord 1#1 0#12 0#32, txnWord 1#1 0#12 0#32⟩,
       ⟨"RD", txnWord 0#1 0#12 0#32, txnWord 1#1 0#12 0#32⟩] := by
  decide

/-- A row given by its fields matches a word when each field of the word, masked, is the row's. -/
theorem matchesWord_txnWord (m : String) (b b' mb : BitVec 1) (a a' ma : RegNum) (v v' mv : Word) :
    OpcodeRow.matchesWord ⟨m, txnWord b a v, txnWord mb ma mv⟩ (txnWord b' a' v') =
      decide (b' &&& mb = b ∧ a' &&& ma = a ∧ v' &&& mv = v) := by
  simp only [OpcodeRow.matchesWord, txnWord_and, txnWord_inj]

/-- A command's row matches the command's word alone. -/
theorem matchesWord_commandRow (m : String) (k : Word) (b : BitVec 1) (a : RegNum) (v : Word) :
    OpcodeRow.matchesWord ⟨m, commandWord k, txnWord 1#1 0xFFF#12 0xFFFFFFFF#32⟩ (txnWord b a v) =
      decide (b = 1#1 ∧ a = 0#12 ∧ v = k) := by
  have hb : b &&& 1#1 = b := BitVec.and_allOnes
  have ha : a &&& 0xFFF#12 = a := BitVec.and_allOnes
  have hv : v &&& 0xFFFFFFFF#32 = v := BitVec.and_allOnes
  rw [commandWord, matchesWord_txnWord, hb, ha, hv]

/-- The catch-all row matches every command. -/
theorem matchesWord_illegalRow (m : String) (b : BitVec 1) (a : RegNum) (v : Word) :
    OpcodeRow.matchesWord ⟨m, commandWord 0#32, txnWord 1#1 0xFFF#12 0#32⟩ (txnWord b a v) =
      decide (b = 1#1 ∧ a = 0#12) := by
  have hb : b &&& 1#1 = b := BitVec.and_allOnes
  have ha : a &&& 0xFFF#12 = a := BitVec.and_allOnes
  rw [commandWord, matchesWord_txnWord, hb, ha]
  simp

/-- The rows of `WR` and `RD` match by the WR bit. -/
theorem matchesWord_accessRow (m : String) (k b : BitVec 1) (a : RegNum) (v : Word) :
    OpcodeRow.matchesWord ⟨m, txnWord k 0#12 0#32, txnWord 1#1 0#12 0#32⟩ (txnWord b a v) = decide (b = k) := by
  have hb : b &&& 1#1 = b := BitVec.and_allOnes
  rw [matchesWord_txnWord, hb]
  simp

/-! ### The first matching row -/

/-- The mnemonic of the first row that matches a word. -/
def firstRow (w : TxnWord) : Option String := (opcodeTable.find? fun r => r.matchesWord w).map fun r => r.mnemonic

/-- A read passes the seven rows that ask for WR = 1. -/
theorem firstRow_read (a : RegNum) (v : Word) : firstRow (txnWord 0#1 a v) = some "RD" := by
  simp [firstRow, opcodeTable_eq, matchesWord_commandRow, matchesWord_illegalRow, matchesWord_accessRow]

/-- A write of a register other than CMD passes the six rows that ask for ADDR = 0. -/
theorem firstRow_write {a : RegNum} (v : Word) (h : a ≠ 0#12) : firstRow (txnWord 1#1 a v) = some "WR" := by
  simp [firstRow, opcodeTable_eq, matchesWord_commandRow, matchesWord_illegalRow, matchesWord_accessRow, h]

/-- Among the command rows the first match is the command's own, and the catch-all takes what they leave. -/
theorem firstRow_commandWord (v : Word) : firstRow (commandWord v) = some (decodeCommand v).mnemonic := by
  rw [firstRow, opcodeTable_eq, decodeCommand_eq, commandWord]
  repeat' split
  all_goals simp [matchesWord_commandRow, matchesWord_illegalRow, Instr.mnemonic, *]

/-- Settles O10, by the lines of 30_encoding.md R81: a read, a write of a register, a command. -/
theorem decoderTakesTheFirstMatchingRow : Obligations.DecoderTakesTheFirstMatchingRow := by
  intro w
  change firstRow w = some (decodeWord w).mnemonic
  rw [← txnWord_fields w]
  generalize wrField w = b, addrField w = a, dataField w = v
  obtain rfl | rfl := b.eq_zero_or_eq_one
  · rw [firstRow_read, decodeWord_read, Instr.mnemonic]
  · by_cases haddr : a = 0#12
    · rw [haddr, ← commandWord, firstRow_commandWord, decodeWord_commandWord]
    · rw [firstRow_write v haddr, decodeWord_write v haddr, Instr.mnemonic]

end Sys2Proof.Machine
end

section
/-! PROOFS. The two length functions of the codec: `len2dlc` names the least code that holds a length, and the lengths
ascend (30_encoding.md R96). -/

namespace Sys2Proof.Machine

/-- A code below `len2dlc n` is too short for `n`. -/
theorem dlc2len_lt_of_lt_len2dlc {n c : Nat} (h : c < len2dlc n) : dlc2len c < n := by
  have hc : c < Config.fdLengths.length := Nat.lt_of_lt_of_le h List.findIdx_le_length
  have hlen := List.not_of_lt_findIdx h
  rw [dlc2len, List.getD_eq_getElem?_getD, List.getElem?_eq_getElem hc, Option.getD_some]
  exact Nat.not_le.1 (of_decide_eq_false hlen)

/-- `len2dlc n` is the only code that holds `n` while no code below it does. -/
theorem len2dlc_eq {n c : Nat} (hn : n ≤ 64) (hfits : n ≤ dlc2len c) (hleast : ∀ c' < c, dlc2len c' < n) :
    len2dlc n = c := by
  obtain ⟨-, hspec⟩ := len2dlc_spec hn
  obtain hlt | heq | hgt := Nat.lt_trichotomy (len2dlc n) c
  · exact absurd (hleast _ hlt) (Nat.not_lt.2 hspec)
  · exact heq
  · exact absurd (dlc2len_lt_of_lt_len2dlc hgt) (Nat.not_lt.2 hfits)

/-- The canonical lengths ascend. -/
theorem dlc2len_strictMono {c c' : Nat} (hc : c ≤ 15) (h : c' < c) : dlc2len c' < dlc2len c := by
  have hall : ∀ c ≤ 15, ∀ c' < c, dlc2len c' < dlc2len c := by decide
  exact hall c hc c' h

/-- `len2dlc` takes a canonical length back to its code. -/
theorem len2dlc_dlc2len {c : Nat} (hc : c ≤ 15) : len2dlc (dlc2len c) = c :=
  len2dlc_eq (dlc2len_le hc) (Nat.le_refl _) fun _ => dlc2len_strictMono hc

/-- The canonical lengths are those of the sixteen codes. -/
theorem mem_fdLengths {n : Nat} : n ∈ Config.fdLengths ↔ ∃ c ≤ 15, dlc2len c = n := by
  have hcodes : Config.fdLengths = (List.range 16).map dlc2len := by decide
  simp only [hcodes, List.mem_map, List.mem_range, Nat.lt_succ_iff]

/-- A length is its code's exactly when it is canonical. -/
theorem dlc2len_len2dlc_eq_iff {n : Nat} (hn : n ≤ 64) : dlc2len (len2dlc n) = n ↔ n ∈ Config.fdLengths := by
  rw [mem_fdLengths]
  constructor
  · intro h
    exact ⟨len2dlc n, (len2dlc_spec hn).1, h⟩
  · rintro ⟨c, hc, rfl⟩
    rw [len2dlc_dlc2len hc]

/-- Settles O27. -/
theorem lengthCodes : Obligations.LengthCodes := by
  refine ⟨fun n hn => ?_, by decide, fun c hc => len2dlc_dlc2len hc, by decide⟩
  obtain ⟨hcode, hfits⟩ := len2dlc_spec hn
  exact ⟨hcode, hfits, fun c => dlc2len_lt_of_lt_len2dlc, dlc2len_len2dlc_eq_iff hn⟩

end Sys2Proof.Machine
end

section
/-! PROOFS. Unit T: the splits of a quanta count (40_timing.md R115), the scan of R108 as a choice of the least
candidate in the order of R107, and TCALC with and without a candidate (R109 to R113). -/

namespace Sys2Proof.Machine

open Sys2Proof.Safety

/-! ### The splits of a quanta count -/

/-- A quanta count has a split with first segment `t1` exactly when `t1` is within the bounds the list is made of. -/
theorem exists_mem_splits_iff {o : TimingOperands} {brp q t1 : Nat} :
    (∃ c ∈ splits o brp q, c.t1 = t1) ↔
      max (2 * o.lo) (q - 1 - o.hi) ≤ t1 ∧ t1 ≤ min (o.lo + o.hi) (q - 1 - o.lo) := by
  simp only [mem_splits]
  constructor
  · rintro ⟨c, ⟨-, -, -, hlower, hupper⟩, rfl⟩
    exact ⟨hlower, hupper⟩
  · rintro ⟨hlower, hupper⟩
    exact ⟨⟨brp, q, t1, q - 1 - t1⟩, ⟨rfl, rfl, rfl, hlower, hupper⟩, rfl⟩

theorem ascending_eq_nil_iff {a b : Nat} : ascending a b = [] ↔ b < a := by
  rw [ascending, List.range'_eq_nil_iff]
  omega

/-- A quanta count has no split exactly when its bounds cross. -/
theorem splits_eq_nil_iff {o : TimingOperands} {brp q : Nat} :
    splits o brp q = [] ↔ min (o.lo + o.hi) (q - 1 - o.lo) < max (2 * o.lo) (q - 1 - o.hi) := by
  rw [splits, List.map_eq_nil_iff, ascending_eq_nil_iff]

/-- Settles O21. -/
theorem quantaCountsWithASplit : Obligations.QuantaCountsWithASplit := by
  intro o brp q hlo
  refine ⟨fun hle => ?_, fun hlt => ?_, fun t1 => ?_⟩
  · rw [Ne, splits_eq_nil_iff]
    omega
  · rw [splits_eq_nil_iff]
    omega
  · rw [exists_mem_splits_iff]
    omega

/-! ### The order of the choice -/

/-- Over the denominator common to all three, the errors are three numbers, and the order is that of tuples of
numbers. -/
theorem chosenBefore_trans {samplePoint : Nat} {a b c : Candidate} (ha : 0 < a.q) (hb : 0 < b.q) (hc : 0 < c.q)
    (hab : chosenBefore samplePoint a b) (hbc : chosenBefore samplePoint b c) : chosenBefore samplePoint a c := by
  unfold chosenBefore at hab hbc ⊢
  generalize spError samplePoint a = ea, spError samplePoint b = eb, spError samplePoint c = ec at hab hbc ⊢
  rw [← Nat.mul_lt_mul_right hc, ← Nat.mul_left_inj (Nat.ne_of_gt hc)] at hab
  rw [← Nat.mul_lt_mul_right ha, ← Nat.mul_left_inj (Nat.ne_of_gt ha), Nat.mul_right_comm eb,
    Nat.mul_right_comm ec] at hbc
  rw [← Nat.mul_lt_mul_right hb, ← Nat.mul_left_inj (Nat.ne_of_gt hb), Nat.mul_right_comm ea]
  omega

theorem q_pos_of_isCandidate {o : TimingOperands} {c : Candidate} (h : IsCandidate o c) : 0 < c.q := by
  obtain ⟨-, hsplit, -⟩ := h
  omega

/-! ### The scan -/

/-- With the normative `SYNC_IN_SP` the scan's error is that of 40_timing.md R106. -/
theorem errorNumerator_syncInSp (samplePoint : Nat) (c : Candidate) :
    errorNumerator Config.syncInSp samplePoint c = spError samplePoint c := by
  simp only [errorNumerator, absDiff, spError, Config.spScale, Config.syncInSp, ← Int.natCast_mul]
  split <;> omega

/-- `a` comes before `b` in the order of the scan (40_timing.md R108); one prescaler has one quanta count. -/
def scannedBefore (a b : Candidate) : Prop := a.brp < b.brp ∨ (a.brp = b.brp ∧ a.q = b.q ∧ a.t1 < b.t1)

theorem ascending_pairwise (a b : Nat) : (ascending a b).Pairwise (· < ·) := List.pairwise_lt_range' _

/-- `T1` ascends within a prescaler. -/
theorem splits_pairwise (o : TimingOperands) (brp q : Nat) : (splits o brp q).Pairwise scannedBefore := by
  rw [splits, List.pairwise_map]
  exact (ascending_pairwise ..).imp fun h => .inr ⟨rfl, rfl, h⟩

/-- The prescaler ascends, and `T1` within it. -/
theorem candidates_pairwise (o : TimingOperands) : (candidates o).Pairwise scannedBefore := by
  rw [candidates, List.pairwise_flatMap]
  constructor
  · intro brp _
    unfold candidatesAt
    split
    · exact .nil
    · exact splits_pairwise ..
  · refine (ascending_pairwise ..).imp fun hlt x hx y hy => .inl ?_
    obtain ⟨_, -, hx⟩ := mem_candidatesAt.1 hx
    obtain ⟨_, -, hy⟩ := mem_candidatesAt.1 hy
    rwa [(mem_splits.1 hx).1, (mem_splits.1 hy).1]

/-- A tie in the error goes to the candidate scanned first. -/
theorem chosenBefore_of_scannedBefore {samplePoint : Nat} {a b : Candidate} (hscan : scannedBefore a b)
    (he : spError samplePoint a * b.q ≤ spError samplePoint b * a.q) : chosenBefore samplePoint a b := by
  obtain hlt | heq := Nat.lt_or_eq_of_le he
  · exact .inl hlt
  · refine .inr ⟨heq, ?_⟩
    obtain hbrp | ⟨hbrp, hq, ht1⟩ := hscan
    · exact .inl hbrp
    · exact .inr ⟨hbrp, .inr ⟨hq, ht1⟩⟩

/-- One step of the scan keeps the one of the two that comes first in the order of the choice. -/
theorem keepBest_least {samplePoint : Nat} {b x : Candidate} (hscan : scannedBefore b x) :
    (keepBest Config.syncInSp samplePoint (some b) x = some x ∧ chosenBefore samplePoint x b) ∨
      (keepBest Config.syncInSp samplePoint (some b) x = some b ∧ chosenBefore samplePoint b x) := by
  obtain ⟨hkeep, hsmaller⟩ | ⟨hkeep, hsmaller⟩ := keepBest_some Config.syncInSp samplePoint b x
  all_goals rw [smallerError, errorNumerator_syncInSp, errorNumerator_syncInSp] at hsmaller
  · exact .inl ⟨hkeep, .inl (of_decide_eq_true hsmaller)⟩
  · exact .inr ⟨hkeep, chosenBefore_of_scannedBefore hscan (Nat.not_lt.1 (of_decide_eq_false hsmaller))⟩

/-- What comes before or is the winner of one step also comes before its loser. -/
theorem chosenBefore_of_eq_or_chosenBefore {samplePoint : Nat} {a b c : Candidate} (ha : 0 < a.q) (hb : 0 < b.q)
    (hc : 0 < c.q) (hab : b = a ∨ chosenBefore samplePoint a b) (hbc : chosenBefore samplePoint b c) :
    chosenBefore samplePoint a c := by
  obtain rfl | hab := hab
  · exact hbc
  · exact chosenBefore_trans ha hb hc hab hbc

/-- A scan that has begun ends with the one of those it met that comes before every other. -/
theorem foldl_keepBest_least {samplePoint : Nat} {b : Candidate} {cs : List Candidate}
    (hscan : (b :: cs).Pairwise scannedBefore) (hpos : ∀ x ∈ b :: cs, 0 < x.q) :
    ∃ c, cs.foldl (keepBest Config.syncInSp samplePoint) (some b) = some c ∧ 0 < c.q ∧
      ∀ x ∈ b :: cs, x = c ∨ chosenBefore samplePoint c x := by
  induction cs generalizing b with
  | nil => exact ⟨b, rfl, hpos b (List.mem_singleton_self b), fun x hx => .inl (List.mem_singleton.1 hx)⟩
  | cons x xs ih =>
    simp only [List.pairwise_cons, List.forall_mem_cons] at hscan hpos ih ⊢
    obtain ⟨⟨hbx, hbxs⟩, hxxs, hxs⟩ := hscan
    obtain ⟨hbpos, hxpos, hxspos⟩ := hpos
    obtain ⟨hkeep, hbefore⟩ | ⟨hkeep, hbefore⟩ := keepBest_least (samplePoint := samplePoint) hbx
    all_goals rw [List.foldl_cons, hkeep]
    · obtain ⟨c, hfold, hcpos, hcx, hcxs⟩ := ih ⟨hxxs, hxs⟩ ⟨hxpos, hxspos⟩
      exact ⟨c, hfold, hcpos, .inr (chosenBefore_of_eq_or_chosenBefore hcpos hxpos hbpos hcx hbefore), hcx, hcxs⟩
    · obtain ⟨c, hfold, hcpos, hcb, hcxs⟩ := ih ⟨hbxs, hxs⟩ ⟨hbpos, hxspos⟩
      exact ⟨c, hfold, hcpos, hcb, .inr (chosenBefore_of_eq_or_chosenBefore hcpos hbpos hxpos hcb hbefore), hcxs⟩

/-- When there is a candidate the scan of 40_timing.md R108 finds the least one in the order of R107. -/
theorem chooseCandidate_least {o : TimingOperands} {c₀ : Candidate} (hlo : 1 ≤ o.lo) (h : IsCandidate o c₀) :
    ∃ c, chooseCandidate Config.syncInSp o = some c ∧ IsCandidate o c ∧
      ∀ c', IsCandidate o c' → c' ≠ c → chosenBefore o.samplePoint c c' := by
  obtain ⟨b, cs, hlist⟩ := List.exists_cons_of_ne_nil (List.ne_nil_of_mem ((mem_candidates_iff hlo).2 h))
  obtain ⟨c, hfold, -, hleast⟩ := foldl_keepBest_least (samplePoint := o.samplePoint) (hlist ▸ candidates_pairwise o)
    fun x hx => q_pos_of_isCandidate ((mem_candidates_iff hlo).1 (hlist ▸ hx))
  have hchoice : chooseCandidate Config.syncInSp o = some c := by
    rw [chooseCandidate, hlist, List.foldl_cons, keepBest_none, hfold]
  refine ⟨c, hchoice, isCandidate_of_chooseCandidate hlo hchoice, fun c' hc' hne => ?_⟩
  exact (hleast c' (hlist ▸ (mem_candidates_iff hlo).2 hc')).resolve_left hne

/-- Without a candidate the scan finds none. -/
theorem chooseCandidate_eq_none {o : TimingOperands} (hlo : 1 ≤ o.lo) (h : ¬∃ c, IsCandidate o c) :
    chooseCandidate Config.syncInSp o = none := by
  rw [Option.eq_none_iff_forall_ne_some]
  exact fun c hc => h ⟨c, isCandidate_of_chooseCandidate hlo hc⟩

/-! ### TCALC -/

theorem exec_tcalc_of_some {s : State} {c : Candidate}
    (h : chooseCandidate Config.syncInSp (timingOperands s) = some c) :
    exec .tcalc s = .next (writeBitTiming (bitTimingOf (timingOperands s) c) s) := by
  simp only [exec, execTcalc, computeTiming, h, Option.map_some]

theorem exec_tcalc_of_none {s : State} (h : chooseCandidate Config.syncInSp (timingOperands s) = none) :
    exec .tcalc s = .next (raise .unsupportedBitrate .unitT s) := by
  simp only [exec, execTcalc, computeTiming, h, Option.map_none]

/-- Settles O22: TCALC performs the scan's choice, whose fields come back from BT_* as they were computed. -/
theorem tcalcWritesTheLeastCandidate : Obligations.TcalcWritesTheLeastCandidate := by
  intro s c₀ h₀
  have hlo := one_le_timingOperands_lo s
  obtain ⟨c, hchoice, hc, hleast⟩ := chooseCandidate_least hlo h₀
  have hexact := bitTimingOf_isExact hlo hc
  have hfields := bitTimingIn_writeBitTiming (s := s) hexact.fields_lt
  simp only [bitTimingIn, bitTimingOf, BitTiming.mk.injEq] at hfields
  obtain ⟨hprop, hps1, hps2, hsjw, hbrp, htq⟩ := hfields
  refine ⟨c, _, hc, hleast, exec_tcalc_of_some hchoice, hprop, hps1, hps2, ?_, ?_, ?_, hbrp, htq, ?_, rfl, rfl⟩
  all_goals simp only [bitTimingOf, hprop, hps1, hps2, hsjw]
  · rw [jumpWidth, Nat.min_assoc]
    rfl
  · exact hexact.sjw_bounds.1
  · exact hexact.sjw_bounds.2
  · exact hexact.tq_eq

/-- Settles O23. -/
theorem tcalcWithoutACandidateChangesOnlyStatus : Obligations.TcalcWithoutACandidateChangesOnlyStatus := by
  intro s h
  rw [exec_tcalc_of_none (chooseCandidate_eq_none (one_le_timingOperands_lo s) h)]
  rfl

end Sys2Proof.Machine
end

section
/-! PROOFS. Unit E: the bytes of a wire frame by its parts, the frame FENC encodes or refuses, and TXW after it
(41_frame_encode.md R133 to R140). -/

namespace Sys2Proof.Machine

open Sys2Proof.Safety

/-! ### The bytes of a wire frame -/

theorem byteAt_append_left {bs : List Byte} {i : Nat} (cs : List Byte) (h : i < bs.length) :
    byteAt (bs ++ cs) i = byteAt bs i := by
  rw [byteAt_append, if_pos h]

theorem byteAt_append_right {bs : List Byte} {n : Nat} (cs : List Byte) (i : Nat) (h : bs.length = n) :
    byteAt (bs ++ cs) (n + i) = byteAt cs i := by
  rw [byteAt_append, if_neg (by omega), h, Nat.add_sub_cancel_left]

/-- The twelve bytes before the data area (30_encoding.md R86). -/
def wireHeader (f : Frame) (dlc : Nat) (flagsByte : Byte) : List Byte :=
  le32 f.echoId ++ le32 f.canId ++ [BitVec.ofNat 8 dlc, f.channel, flagsByte, 0#8]

theorem length_wireHeader (f : Frame) (dlc : Nat) (fl : Byte) : (wireHeader f dlc fl).length = 12 := rfl

theorem wireFrame_eq (tsOn : Bool) (f : Frame) (dlc area : Nat) (fl : Byte) :
    wireFrame tsOn f dlc area fl =
      wireHeader f dlc fl ++ (dataArea f.data f.len.toNat area ++ if tsOn then le32 f.ts else []) := by
  rw [← List.append_assoc]
  rfl

theorem byteAt_wireFrame_header (tsOn : Bool) (f : Frame) (dlc area : Nat) (fl : Byte) {i : Nat} (h : i < 12) :
    byteAt (wireFrame tsOn f dlc area fl) i = byteAt (wireHeader f dlc fl) i := by
  rw [wireFrame_eq]
  exact byteAt_append_left _ h

theorem byteAt_wireFrame_data (tsOn : Bool) (f : Frame) (dlc : Nat) {area : Nat} (fl : Byte) {i : Nat} (h : i < area) :
    byteAt (wireFrame tsOn f dlc area fl) (12 + i) = if i < f.len.toNat then byteAt f.data i else 0#8 := by
  rw [wireFrame_eq, byteAt_append_right _ _ (length_wireHeader ..), byteAt_append_left _ (by rwa [dataArea_length]),
    byteAt_dataArea _ _ h]

theorem byteAt_wireFrame_timestamp (f : Frame) (dlc area : Nat) (fl : Byte) (i : Nat) :
    byteAt (wireFrame true f dlc area fl) (12 + (area + i)) = byteAt (le32 f.ts) i := by
  rw [wireFrame_eq, byteAt_append_right _ _ (length_wireHeader ..), byteAt_append_right _ _ (dataArea_length ..),
    if_pos rfl]

/-! ### The frame FENC encodes -/

/-- The wire frame of the TX registers. -/
def txWire (s : State) : List Byte :=
  wireFrame s.regs.cfgHwTs (txFrame s) (txDlc s) (txArea s) (txFlagsByte s)

/-- The flags byte of an FD frame as the sum of 41_frame_encode.md R136. -/
theorem fdFlagsByte_eq (f : FrameFlags) :
    fdFlagsByte f = 0x02#8 + (if f.brs then 0x04#8 else 0#8) + (if f.esi then 0x08#8 else 0#8) := by
  obtain ⟨fd, brs, esi⟩ := f
  revert fd brs esi
  decide

/-- The encoder takes an acceptable frame to its wire frame and refuses every other (41_frame_encode.md R133, R134). -/
theorem encodeFrame_txFrame (s : State) :
    encodeFrame s.regs.cfgHwTs (txFrame s) = if FrameAccepted s then some (txWire s) else none := by
  by_cases hfd : s.regs.txFlags.fd = true
  · simp only [encodeFrame, txFrame, txWire, txDlc, txArea, txFlagsByte, FrameAccepted, fdFlagsByte_eq, hfd, if_true,
      gt_iff_lt, ← Nat.not_le, ite_not]
  · simp only [encodeFrame, txFrame, txWire, txDlc, txArea, txFlagsByte, FrameAccepted, hfd, Bool.false_eq_true,
      if_false, gt_iff_lt, ← Nat.not_le, ite_not]

theorem exec_fenc_of_accepted {s : State} (h : FrameAccepted s) :
    exec .fenc s = .next (writeWireFrame (txWire s) s) := by
  simp only [exec, execFenc, encodeFrame_txFrame, if_pos h]

theorem exec_fenc_of_not_accepted {s : State} (h : ¬FrameAccepted s) :
    exec .fenc s = .next (raise .invalidFrame .unitE s) := by
  simp only [exec, execFenc, encodeFrame_txFrame, if_neg h]

theorem txDlc_le {s : State} (h : FrameAccepted s) : txDlc s ≤ 15 := by
  unfold FrameAccepted at h
  unfold txDlc
  split at h
  next hfd => rw [if_pos hfd]; exact (len2dlc_spec h).1
  next hfd => rw [if_neg hfd]; omega

theorem txArea_le {s : State} (h : FrameAccepted s) : txArea s ≤ 64 := by
  unfold txArea
  split
  · exact dlc2len_le (txDlc_le h)
  · decide

/-- The longest wire frame is as long as TXW (30_encoding.md R93). -/
theorem wireLength_txArea_le {s : State} (h : FrameAccepted s) : wireLength s (txArea s) ≤ 80 := by
  have harea := txArea_le h
  unfold wireLength
  split <;> omega

theorem length_txWire (s : State) : (txWire s).length = wireLength s (txArea s) := wireFrame_length ..

theorem byteAt_txWire_header (s : State) {i : Nat} (h : i < 12) :
    byteAt (txWire s) i = byteAt (wireHeader (txFrame s) (txDlc s) (txFlagsByte s)) i :=
  byteAt_wireFrame_header _ _ _ _ _ h

/-- The data area of an accepted frame: bytes of TX_DATA, then the pad (41_frame_encode.md R137). -/
theorem byteAt_txWire_data {s : State} (h : FrameAccepted s) {i : Nat} (hi : i < txArea s) :
    byteAt (txWire s) (12 + i) = if i < s.regs.txLen.toNat then s.mem.read (0x100 + i) else 0#8 := by
  have hdata : byteAt (txFrame s).data i = s.mem.read (0x100 + i) :=
    Memory.byteAt_readBytes _ _ _ (Nat.lt_of_lt_of_le hi (txArea_le h))
  rw [txWire, byteAt_wireFrame_data _ _ _ _ hi, hdata]
  rfl

theorem byteAt_txWire_timestamp {s : State} (h : s.regs.cfgHwTs = true) (i : Nat) :
    byteAt (txWire s) (12 + (txArea s + i)) = byteAt (le32 s.regs.txTs) i := by
  rw [txWire, h, byteAt_wireFrame_timestamp]
  rfl

/-! ### TXW after a successful FENC -/

/-- All of TXW is written: the frame, then 0 (41_frame_encode.md R139). -/
theorem read_writeWireFrame_txw {s : State} (hwf : s.mem.wf = true) (w : List Byte) {i : Nat} (hi : i < 80) :
    (writeWireFrame w s).mem.read (0x180 + i) = byteAt w i := by
  rw [← byteAt_zeroPadded w hi, writeWireFrame_mem]
  exact Memory.read_writeBytes_inside _ _ _ hwf (by rwa [zeroPadded_length])

theorem read_writeWireFrame_outside (s : State) (w : List Byte) {a : Nat} (h : a < 0x180 ∨ 0x1CF < a) :
    (writeWireFrame w s).mem.read a = s.mem.read a := by
  rw [writeWireFrame_mem]
  refine Memory.read_writeBytes_outside _ _ ?_
  simp only [zeroPadded_length, Buffer.base, Buffer.size]
  omega

/-- Four bytes of the frame that are `LE32(v)` stand as `v` in TXW. -/
theorem holdsLe32_writeWireFrame {s : State} (hwf : s.mem.wf = true) {w : List Byte} {j : Nat} {v : Word}
    (hj : j + 4 ≤ 80) (h : ∀ k < 4, byteAt w (j + k) = byteAt (le32 v) k) :
    HoldsLe32 (writeWireFrame w s).mem (0x180 + j) v := by
  have hread : ∀ k < 4, (writeWireFrame w s).mem.read (0x180 + j + k) = byteAt (le32 v) k := fun k hk => by
    rw [Nat.add_assoc, read_writeWireFrame_txw hwf w (by omega), h k hk]
  exact ⟨hread 0 (by decide), hread 1 (by decide), hread 2 (by decide), hread 3 (by decide)⟩

/-- An accepted frame, once written, is in TXW as 41_frame_encode.md R135 to R139 describe it. -/
theorem holdsWireFrame_writeWireFrame {s : State} (hwf : s.mem.wf = true) (hacc : FrameAccepted s) :
    HoldsWireFrame s (writeWireFrame (txWire s) s) := by
  have hdlc := txDlc_le hacc
  have harea := txArea_le hacc
  have hlen := wireLength_txArea_le hacc
  have hbyte {i : Nat} (hi : i < 80) : (writeWireFrame (txWire s) s).mem.read (0x180 + i) = byteAt (txWire s) i :=
    read_writeWireFrame_txw hwf _ hi
  have hheader {i : Nat} (hi : i < 12) : (writeWireFrame (txWire s) s).mem.read (0x180 + i) =
      byteAt (wireHeader (txFrame s) (txDlc s) (txFlagsByte s)) i :=
    (hbyte (by omega)).trans (byteAt_txWire_header s hi)
  refine ⟨?echoId, ?canId, ?dlc, hheader (i := 9) (by decide), hheader (i := 10) (by decide),
    hheader (i := 11) (by decide), fun i hi => ?data, fun hts => ?timestamp, fun i hi hend => ?pad, ?length⟩
  case echoId => exact ⟨hheader (i := 0) (by decide), hheader (i := 1) (by decide), hheader (i := 2) (by decide),
    hheader (i := 3) (by decide)⟩
  case canId => exact ⟨hheader (i := 4) (by decide), hheader (i := 5) (by decide), hheader (i := 6) (by decide),
    hheader (i := 7) (by decide)⟩
  case dlc =>
    rw [hheader (i := 8) (by decide)]
    exact Nat.mod_eq_of_lt (by omega)
  case data => rw [← byteAt_txWire_data hacc hi, ← hbyte (by omega), ← Nat.add_assoc]
  case timestamp =>
    have hfits : 12 + txArea s + 4 ≤ 80 := by omega
    have hholds := holdsLe32_writeWireFrame hwf hfits fun k _ => by
      rw [Nat.add_assoc, byteAt_txWire_timestamp hts]
    rwa [← Nat.add_assoc] at hholds
  case pad => rw [hbyte hi, byteAt_of_le (by rwa [length_txWire])]
  case length =>
    rw [writeWireFrame_regs, length_txWire]
    exact Nat.mod_eq_of_lt (by omega)

/-- Settles O28: FENC writes the wire frame of the TX registers to TXW, and its length and status beside it. -/
theorem fencWritesTheWireFrame : Obligations.FencWritesTheWireFrame := by
  intro s hwf hacc
  have hregs := writeWireFrame_regs (txWire s) s
  refine ⟨_, exec_fenc_of_accepted hacc, holdsWireFrame_writeWireFrame hwf hacc, ?status, ?regs,
    fun _ => read_writeWireFrame_outside s _, writeWireFrame_pending _ s, writeWireFrame_returned _ s⟩
  case status =>
    rw [hregs]
    rfl
  case regs => rw [hregs]

/-- Settles O29: a frame longer than its variant allows is not accepted, and FENC raises `InvalidFrame`. -/
theorem fencRefusalChangesOnlyStatus : Obligations.FencRefusalChangesOnlyStatus := by
  intro s hlong
  have hrefused : ¬FrameAccepted s := by
    unfold FrameAccepted
    obtain ⟨hfd, hlen⟩ | ⟨hfd, hlen⟩ := hlong
    · simpa [hfd] using hlen
    · simpa [hfd] using hlen
  exact exec_fenc_of_not_accepted hrefused

end Sys2Proof.Machine
end

section
/-! PROOFS. Unit D: the bytes of RXW that FDEC reads, the packet it decodes or refuses, and the RX registers after it
(42_frame_decode.md R152 to R158). -/

namespace Sys2Proof.Machine

open Sys2Proof.Safety

/-! ### The bytes of a packet -/

theorem byteAt_rxw (s : State) {i : Nat} (h : i < 80) : byteAt (readBuffer .rxw s) i = packetByte s i :=
  Memory.byteAt_readBytes _ _ _ h

/-- A word that FDEC assembles from RXW stands there as its four little-endian bytes (20_memory.md R60). -/
theorem holdsLe32_le32At_rxw (s : State) {j : Nat} (h : j + 4 ≤ 80) :
    HoldsLe32 s.mem (0x200 + j) (le32At (readBuffer .rxw s) j) := by
  obtain ⟨h0, h1, h2, h3⟩ := le32At_bytes (readBuffer .rxw s) j
  rw [byteAt_rxw s (by omega)] at h0 h1 h2 h3
  exact ⟨h0.symm, h1.symm, h2.symm, h3.symm⟩

/-- A flags register keeps bits 3:1 of the packet's flags byte (10_state.md R34). -/
theorem FrameFlags.byte_ofByte (b : Byte) : (FrameFlags.ofByte b).byte = b &&& 0x0E#8 := by
  revert b
  decide

/-! ### The packet FDEC decodes -/

/-- The shape of the packet in RXW by its variant and length code (42_frame_decode.md R154, R155). -/
def packetShape (s : State) : WireShape where
  area := packetArea s
  len := if packetFd s then dlc2len (packetDlc s) else packetDlc s
  flags := if packetFd s then .ofByte (packetByte s 10) else .classic

/-- The Frame of the packet in RXW. -/
def packetFrame (s : State) : Frame := frameOfWire s.regs.cfgHwTs (readBuffer .rxw s) (packetShape s)

/-- Check 3 of 42_frame_decode.md R152 on the packet in RXW. -/
theorem wireShape_rxw (s : State) :
    wireShape (readBuffer .rxw s) =
      if packetDlc s ≤ (if packetFd s then 15 else 8) then some (packetShape s) else none := by
  rw [wireShape, byteAt_rxw s (by decide), byteAt_rxw s (by decide)]
  by_cases hfd : (packetByte s 10).getLsbD 1 = true
  · simp only [packetShape, packetArea, packetDlc, packetFd, FrameFlags.ofByte, hfd, if_true, gt_iff_lt,
      ← Nat.not_le, ite_not]
  · simp only [packetShape, packetArea, packetDlc, packetFd, FrameFlags.ofByte, hfd, Bool.false_eq_true, if_false,
      gt_iff_lt, ← Nat.not_le, ite_not]

/-- The decoder takes a packet that passes the four checks to its Frame and refuses every other (42_frame_decode.md
R152). -/
theorem decodeFrame_rxw (s : State) :
    decodeFrame s.regs.cfgHwTs s.regs.rxwLen.toNat (readBuffer .rxw s) =
      if PacketAccepted s then some (packetFrame s) else none := by
  rw [decodeFrame, wireShape_rxw]
  split
  next hshort => rw [if_neg fun ⟨h, _⟩ => Nat.not_le.2 hshort h]
  next hmin =>
    split
    next hlong => rw [if_neg fun ⟨_, h, _⟩ => Nat.not_le.2 hlong h]
    next hmax =>
      by_cases hdlc : packetDlc s ≤ (if packetFd s then 15 else 8)
      · have haccepted : PacketAccepted s ↔ s.regs.rxwLen.toNat = 12 + packetArea s + tsBytes s.regs.cfgHwTs :=
          ⟨fun ⟨_, _, _, hlen⟩ => hlen, fun hlen => ⟨Nat.not_lt.1 hmin, Nat.not_lt.1 hmax, hdlc, hlen⟩⟩
        simp only [if_pos hdlc, ite_not, haccepted]
        rfl
      · simp only [if_neg hdlc]
        rw [if_neg fun ⟨_, _, h, _⟩ => hdlc h]

theorem exec_fdec_of_accepted {s : State} (h : PacketAccepted s) :
    exec .fdec s = .next (writeRxFrame s.regs.cfgHwTs (packetFrame s) s) := by
  simp only [exec, execFdec, decodeFrame_rxw, if_pos h]

theorem exec_fdec_of_not_accepted {s : State} (h : ¬PacketAccepted s) :
    exec .fdec s = .next (raise .invalidFrame .unitD s) := by
  simp only [exec, execFdec, decodeFrame_rxw, if_neg h]

/-- An accepted packet's Frame has at most the 64 data bytes of RX_DATA. -/
theorem packetShape_len_le {s : State} (h : PacketAccepted s) : (packetShape s).len ≤ 64 := by
  obtain ⟨-, -, hdlc, -⟩ := h
  unfold packetShape
  dsimp only
  split at hdlc
  next hfd => rw [if_pos hfd]; exact dlc2len_le hdlc
  next hfd => rw [if_neg hfd]; omega

theorem packetFrame_len {s : State} (h : PacketAccepted s) : (packetFrame s).len.toNat = (packetShape s).len :=
  Nat.mod_eq_of_lt (Nat.lt_of_le_of_lt (packetShape_len_le h) (by decide))

theorem packetFrame_flags_byte (s : State) :
    (packetFrame s).flags.byte = if packetFd s then packetByte s 10 &&& 0x0E#8 else 0#8 := by
  rw [← FrameFlags.byte_ofByte]
  exact apply_ite FrameFlags.byte ..

/-- The Frame's data: the packet's data area below the Frame's length, then 0 (42_frame_decode.md R155). -/
theorem byteAt_packetFrame_data {s : State} (h : PacketAccepted s) {i : Nat} (hi : i < 64) :
    byteAt (packetFrame s).data i = if i < (packetFrame s).len.toNat then packetByte s (12 + i) else 0#8 := by
  rw [packetFrame_len h, ← byteAt_rxw s (by omega)]
  simp only [packetFrame, frameOfWire, byteAt, List.getD, List.getElem?_map, List.getElem?_range hi, Option.map_some,
    Option.getD_some]

/-- The timestamp of an accepted packet follows its data area (42_frame_decode.md R156). -/
theorem holdsLe32_packetFrame_ts {s : State} (h : PacketAccepted s) (hts : s.regs.cfgHwTs = true) :
    HoldsLe32 s.mem (0x20C + packetArea s) (packetFrame s).ts := by
  obtain ⟨-, hmax, -, hlen⟩ := h
  rw [if_pos hts] at hlen
  have hholds := holdsLe32_le32At_rxw s (j := 12 + packetArea s) (by omega)
  rw [← Nat.add_assoc] at hholds
  rwa [packetFrame, frameOfWire, if_pos hts]

theorem packetFrame_ts_of_off {s : State} (h : s.regs.cfgHwTs = false) : (packetFrame s).ts = 0#32 := by
  rw [packetFrame, frameOfWire, h]
  rfl

/-! ### RX_DATA after a successful FDEC -/

/-- All of RX_DATA is written (42_frame_decode.md R155). -/
theorem read_writeRxFrame_rxData {s : State} (hwf : s.mem.wf = true) (tsOn : Bool) (f : Frame) {i : Nat} (hi : i < 64) :
    (writeRxFrame tsOn f s).mem.read (0x280 + i) = byteAt f.data i := by
  rw [← byteAt_zeroPadded f.data hi, writeRxFrame_mem]
  exact Memory.read_writeBytes_inside _ _ _ hwf (by rwa [zeroPadded_length])

theorem read_writeRxFrame_outside (tsOn : Bool) (f : Frame) (s : State) {a : Nat} (h : a < 0x280 ∨ 0x2BF < a) :
    (writeRxFrame tsOn f s).mem.read a = s.mem.read a := by
  rw [writeRxFrame_mem]
  refine Memory.read_writeBytes_outside _ _ ?_
  simp only [zeroPadded_length, Buffer.base, Buffer.size]
  omega

/-- An accepted packet's Frame, once written, is in the RX registers and RX_DATA as 42_frame_decode.md R153 to R156
describe it. -/
theorem holdsDecodedFrame_writeRxFrame {s : State} (hwf : s.mem.wf = true) (hacc : PacketAccepted s) :
    HoldsDecodedFrame s (writeRxFrame s.regs.cfgHwTs (packetFrame s) s) := by
  unfold HoldsDecodedFrame
  rw [writeRxFrame_regs]
  refine ⟨?echoId, ?canId, ?channel, ?flags, ?len, fun i hi => ?data, ?timestamp, ?noTimestamp⟩
  case echoId => exact holdsLe32_le32At_rxw s (j := 0) (by decide)
  case canId => exact holdsLe32_le32At_rxw s (j := 4) (by decide)
  case channel => exact byteAt_rxw s (i := 9) (by decide)
  case flags => exact packetFrame_flags_byte s
  case len => exact packetFrame_len hacc
  case data => rw [read_writeRxFrame_rxData hwf _ _ hi, byteAt_packetFrame_data hacc hi]
  case timestamp => exact holdsLe32_packetFrame_ts hacc
  case noTimestamp => exact packetFrame_ts_of_off

/-- Settles O31: FDEC writes the packet's Frame to the RX registers and RX_DATA, and its status beside them. -/
theorem fdecWritesTheFrame : Obligations.FdecWritesTheFrame := by
  intro s hwf hacc
  have hregs := writeRxFrame_regs s.regs.cfgHwTs (packetFrame s) s
  refine ⟨_, exec_fdec_of_accepted hacc, holdsDecodedFrame_writeRxFrame hwf hacc, ?status, ?regs,
    fun _ => read_writeRxFrame_outside _ _ s, writeRxFrame_pending _ _ s, writeRxFrame_returned _ _ s⟩
  case status =>
    rw [hregs]
    rfl
  case regs => rw [hregs]

/-- Settles O32: FDEC raises `InvalidFrame` on a packet it does not accept, which writes D_STATUS alone. -/
theorem fdecRefusalChangesOnlyStatus : Obligations.FdecRefusalChangesOnlyStatus :=
  fun _ hrefused => exec_fdec_of_not_accepted hrefused

end Sys2Proof.Machine
end

section
/-! PROOFS. Host access and the housekeeping commands: what one register reads after a host write of the same or of
another, how RD and WR go on by what their number names, and the frame of a refusal (43_host_access.md R170 to R176). -/

namespace Sys2Proof.Machine

/-! ### The implemented bits of a word -/

/-- A one-bit register keeps bit 0. -/
theorem bitWord_getLsbD_zero (v : Word) : bitWord (v.getLsbD 0) = v &&& 0x1#32 := by
  rw [bitWord, BitVec.and_one_eq_setWidth_ofBool_getLsbD]

/-- A byte register keeps bits 7:0. -/
theorem byteWord_lowByte (v : Word) : byteWord (lowByte v) = v &&& 0xFF#32 := by
  have hmod : v.toNat % 2 ^ 8 = v.toNat &&& 0xFF := (Nat.and_two_pow_sub_one_eq_mod v.toNat 8).symm
  apply BitVec.eq_of_toNat_eq
  simp [byteWord, lowByte, ← hmod]
  omega

/-- A flags register keeps bits 3:1. -/
theorem byteWord_ofByte_lowByte (v : Word) : byteWord (FrameFlags.ofByte (lowByte v)).byte = v &&& 0xE#32 := by
  rw [FrameFlags.byte_ofByte, byteWord, BitVec.setWidth_and, ← byteWord, byteWord_lowByte, BitVec.and_assoc]
  rfl

/-! ### One register read after a host write -/

/-- An RW register reads the implemented bits of what was written to it (30_encoding.md R84). -/
theorem readReg_writeReg_self {r : Reg} {s : State} (v : Word) (hrw : r.access = .rw) (hwf : s.mem.wf = true) :
    readReg r (writeReg r v s) = v &&& r.implemented := by
  cases r with
  | cfg | lSjwPolicy => exact bitWord_getLsbD_zero v
  | txChannel | txLen | rxwLen => exact byteWord_lowByte v
  | txFlags => exact byteWord_ofByte_lowByte v
  | tBitrate | tClockHz | tSamplePoint | lBrpMax | lSegMin | lSegMax | lSjwMax | txEchoId | txCanId | txTs =>
    exact BitVec.and_allOnes.symm
  | element b i =>
    cases b with
    | txData | rxw => exact (congrArg byteWord (Memory.read_write_self _ _ hwf)).trans (byteWord_lowByte v)
    | txw | rxData => cases hrw
  | _ => cases hrw

/-- A host write leaves what every other register reads alone. -/
theorem readReg_writeReg_other {r r' : Reg} (v : Word) (s : State) (h : r'.number ≠ r.number) :
    readReg r' (writeReg r v s) = readReg r' s := by
  cases r' with
  | element b i => exact congrArg byteWord (writeReg_read_other r v s h)
  | _ =>
    cases r with
    | element b i => cases b <;> rfl
    | _ => first | rfl | exact absurd rfl h

/-- Every register reads 0 once the registers are cleared (70_reset_and_hazards.md R260). -/
theorem readReg_clearRegisters (r : Reg) (s : State) : readReg r (clearRegisters s) = 0#32 := by
  cases r with
  | tStatus | eStatus => exact (by decide : UnitStatus.never.word = 0#32)
  | dStatus => exact (by decide : DecodeStatus.never.word = 0#32)
  | fault => exact (by decide : FaultStatus.clear.word = 0#32)
  | txFlags | rxFlags => exact (by decide : byteWord FrameFlags.classic.byte = 0#32)
  | _ => rfl

/-! ### The faults of the host port -/

/-- 60_exceptions.md R235 for `IllegalCommand`. -/
theorem raise_illegalCommand (s : State) :
    raise .illegalCommand .hostPort s =
      { s with regs := { s.regs with fault := ⟨true, s.regs.fault.badacc, 3#4⟩ } } := by
  simp [raise, FaultStatus.record, ErrorKind.code]

/-- 60_exceptions.md R235 for `BadAccess`. -/
theorem raise_badAccess (s : State) :
    raise .badAccess .hostPort s =
      { s with regs := { s.regs with fault := ⟨s.regs.fault.illcmd, true, 4#4⟩ } } := by
  simp [raise, FaultStatus.record, ErrorKind.code]

/-! ### RD, WR and command words -/

theorem exec_rd_of_assigned {a : RegNum} {r : Reg} (d : Word) (s : State) (h : regAt a = some r) :
    exec (.rd a d) s = .next (returnValue (readReg r s) s) := by
  simp only [exec, execRd, h]

theorem exec_rd_of_unassigned {a : RegNum} (d : Word) (s : State) (h : regAt a = none) :
    exec (.rd a d) s = .next (returnValue 0#32 (raise .badAccess .hostPort s)) := by
  simp only [exec, execRd, h]

theorem exec_wr_of_rw {a : RegNum} {r : Reg} (d : Word) (s : State) (h : regAt a = some r) (hrw : r.access = .rw) :
    exec (.wr a d) s = .next (writeReg r d s) := by
  simp only [exec, execWr, h, hrw, if_true]

theorem exec_wr_of_not_rw {a : RegNum} (d : Word) (s : State) (h : ∀ r, regAt a = some r → r.access ≠ .rw) :
    exec (.wr a d) s = .next (raise .badAccess .hostPort s) := by
  obtain ⟨t, ht⟩ := exec_completes (.wr a d) s
  obtain ⟨r, hr, hrw, -⟩ | ⟨-, rfl⟩ := execWr_cases ht
  · exact absurd hrw (h r hr)
  · exact ht

theorem exec_illegal (v : Word) (s : State) :
    exec (.illegal v) s = .next (raise .illegalCommand .hostPort s) := rfl

/-- A command word above 4 is illegal (43_host_access.md R174). -/
theorem decodeCommand_of_gt {v : Word} (h : 4 < v.toNat) : decodeCommand v = .illegal v := by
  have hne : ∀ k : Word, k.toNat ≤ 4 → v ≠ k := by
    rintro k hk rfl
    omega
  rw [decodeCommand_eq, if_neg (hne _ (by decide)), if_neg (hne _ (by decide)), if_neg (hne _ (by decide)),
    if_neg (hne _ (by decide)), if_neg (hne _ (by decide))]

/-! ### The statements -/

/-- Settles O13: RD returns what its register reads, which for CMD is 0, or raises `BadAccess` and returns 0. -/
theorem readTransaction : Obligations.ReadTransaction := by
  refine fun a d => ⟨decodeWord_read a d, fun s => ⟨fun r hr => ?assigned, fun hnone => ?unassigned⟩⟩
  case assigned =>
    have hvalue : (if r = .cmd then 0#32 else readReg r s) = readReg r s := by
      split
      next hcmd => rw [hcmd, readReg]
      next => rfl
    rw [exec_rd_of_assigned d s hr, hvalue, returnValue]
  case unassigned => rw [exec_rd_of_unassigned d s hnone, raise_badAccess, returnValue]

/-- Settles O14: WR of an RW register is one `writeReg`, which the laws of read after write describe; every other WR
raises `BadAccess`. -/
theorem writeTransaction : Obligations.WriteTransaction := by
  refine fun a d ha => ⟨decodeWord_write d ha, fun s => ⟨fun r hr hrw hwf => ?stored, fun hnot => ?refused⟩⟩
  case stored =>
    have hnumber : r.number = a.toNat := regAt_number hr
    refine ⟨_, exec_wr_of_rw d s hr hrw, readReg_writeReg_self d hrw hwf, fun a' r' hr' hne => ?otherRegister,
      fun n hn => writeReg_read_other r d s (by rwa [hnumber]), writeReg_pending r d s, writeReg_returned r d s⟩
    case otherRegister =>
      refine readReg_writeReg_other d s ?_
      rwa [hnumber, regAt_number hr', Ne, BitVec.toNat_inj]
  case refused => rw [exec_wr_of_not_rw d s hnot, raise_badAccess]

/-- Settles O17: NOP's meaning is the state it is given. -/
theorem nopChangesNothing : Obligations.NopChangesNothing := ⟨by decide, fun _ => rfl⟩

/-- Settles O19: a word that R174 rejects is a number above 4, and the illegal command raises `IllegalCommand`. -/
theorem illegalCommandSetsOnlyFault : Obligations.IllegalCommandSetsOnlyFault := by
  intro v hv
  have hgt : 4 < v.toNat := by omega
  refine ⟨(decodeWord_commandWord v).trans (decodeCommand_of_gt hgt), fun s => ?_⟩
  rw [exec_illegal, raise_illegalCommand]

/-- Settles O50: CLR clears the registers, and a cleared register reads 0. -/
theorem clrPutsEveryRegisterInItsResetState : Obligations.ClrPutsEveryRegisterInItsResetState :=
  ⟨by decide, fun s => ⟨clearRegisters s, rfl, clearRegisters_regs s, clearRegisters_mem s,
    fun _ r _ => readReg_clearRegisters r s⟩⟩

end Sys2Proof.Machine
end

section
/-! PROOFS. The reset state: what its registers read, and what the commands of the three units do in it
(70_reset_and_hazards.md R260, R262). -/

namespace Sys2Proof.Machine

open Sys2Proof.Safety

/-- Settles O1: the reset state is what clearing the registers leaves of itself, and a cleared register reads 0. -/
theorem everyRegisterReadsZeroAfterReset : Obligations.EveryRegisterReadsZeroAfterReset :=
  fun _ r _ => readReg_clearRegisters r State.reset

/-- With `B = 0` no prescaler meets 40_timing.md R105 (R120). -/
theorem no_candidate_of_bitrate_eq_zero {o : TimingOperands} (h : o.bitrate = 0) : ¬∃ c, IsCandidate o c := by
  rintro ⟨c, ⟨-, -, hd, -⟩, -⟩
  exact hd (by rw [h, Nat.mul_zero])

/-- A packet shorter than its header fails the first check of 42_frame_decode.md R152. -/
theorem not_packetAccepted_of_short {s : State} (h : s.regs.rxwLen.toNat < 12) : ¬PacketAccepted s :=
  fun ⟨hmin, _⟩ => Nat.not_lt.2 hmin h

theorem zeroPadded_replicate_zero (n k : Nat) : zeroPadded n (List.replicate k 0#8) = List.replicate n 0#8 := by
  refine List.eq_replicate_iff.2 ⟨zeroPadded_length .., fun b hb => ?_⟩
  obtain ⟨i, -, rfl⟩ := List.mem_map.1 hb
  simp only [byteAt, List.getD_eq_getElem?_getD, List.getElem?_replicate]
  split <;> rfl

/-- The reset value is never listed, so zeros written to a memory in its reset state leave it there (log 8). -/
theorem Memory.writeBytes_nil_replicate_zero (a n : Nat) : Memory.writeBytes [] a (List.replicate n 0#8) = [] := by
  induction n generalizing a with
  | zero => rfl
  | succ n ih => exact ih (a + 1)

/-- A frame of zeros leaves a memory in its reset state as it is: only TXW_LEN and E_STATUS change. -/
theorem writeWireFrame_replicate_zero {s : State} (n : Nat) (h : s.mem = []) :
    writeWireFrame (List.replicate n 0#8) s =
      { s with regs := { s.regs with txwLen := BitVec.ofNat 8 n, eStatus := .success } } := by
  have hmem : (writeBuffer .txw (List.replicate n 0#8) s).mem = s.mem := by
    rw [writeBuffer_mem, zeroPadded_replicate_zero, h, Memory.writeBytes_nil_replicate_zero]
  simp only [writeWireFrame, List.length_replicate, hmem, writeBuffer_pending, writeBuffer_returned]

/-- The frame of the reset state: classic, id 0, no data, which is 20 zero bytes on the wire (70_reset_and_hazards.md
R262). -/
theorem txWire_reset : txWire State.reset = List.replicate 20 0#8 := by decide

/-- Settles O2: TCALC has no candidate for `B = 0`, FENC writes 20 zeros over zeros, and FDEC finds no header in an
empty packet. -/
theorem commandsInTheResetState : Obligations.CommandsInTheResetState := by
  refine ⟨fun i => exec_completes i State.reset, ?tcalc, ?fenc, ?fdec⟩
  case tcalc => exact tcalcWithoutACandidateChangesOnlyStatus _ (no_candidate_of_bitrate_eq_zero rfl)
  case fenc =>
    have haccepted : FrameAccepted State.reset := by decide
    rw [exec_fenc_of_accepted haccepted, txWire_reset, writeWireFrame_replicate_zero 20 rfl]
    rfl
  case fdec => exact fdecRefusalChangesOnlyStatus _ (not_packetAccepted_of_short (by decide))

end Sys2Proof.Machine
end

section
/-! PROOFS. The encoding as a bijection between the transaction words and the well-formed instructions
(30_encoding.md R80 to R85). -/

namespace Sys2Proof.Machine

theorem wellFormed_illegal_iff {v : Word} : (Instr.illegal v).wellFormed = true ↔ 4 < v.toNat := by
  simp only [Instr.wellFormed, legalCommandWord, Bool.not_eq_true', decide_eq_false_iff_not, Nat.not_le]

theorem wellFormed_wr_iff {a : RegNum} {v : Word} : (Instr.wr a v).wellFormed = true ↔ a ≠ 0#12 :=
  decide_eq_true_iff

/-- Settles O8: a command word, a write of a register and a read each come back through their line of 30_encoding.md
R81. -/
theorem decodeInvertsEncode : Obligations.DecodeInvertsEncode := by
  intro i hi
  cases i with
  | nop | tcalc | fenc | fdec | clr => exact (decodeWord_commandWord _).trans (decodeCommand_eq _)
  | illegal v => exact (decodeWord_commandWord v).trans (decodeCommand_of_gt (wellFormed_illegal_iff.1 hi))
  | wr a v => exact decodeWord_write v (wellFormed_wr_iff.1 hi)
  | rd a v => exact decodeWord_read a v

/-- The command a command word names is well-formed, and its word is that command word. -/
theorem encode_decodeCommand (v : Word) :
    (decodeCommand v).wellFormed = true ∧ encode (decodeCommand v) = commandWord v := by
  rw [decodeCommand_eq]
  split
  next h => exact ⟨rfl, congrArg commandWord h.symm⟩
  split
  next h => exact ⟨rfl, congrArg commandWord h.symm⟩
  split
  next h => exact ⟨rfl, congrArg commandWord h.symm⟩
  split
  next h => exact ⟨rfl, congrArg commandWord h.symm⟩
  split
  next h => exact ⟨rfl, congrArg commandWord h.symm⟩
  next => exact ⟨wellFormed_illegal_iff.2 (by bv_omega), rfl⟩

/-- Settles O9, by the lines of 30_encoding.md R81. -/
theorem encodeInvertsDecode : Obligations.EncodeInvertsDecode := by
  intro w
  rw [← txnWord_fields w]
  generalize wrField w = b, addrField w = a, dataField w = v
  obtain rfl | rfl := b.eq_zero_or_eq_one
  · rw [decodeWord_read]
    exact ⟨rfl, rfl⟩
  · by_cases haddr : a = 0#12
    · rw [haddr, ← commandWord, decodeWord_commandWord]
      exact encode_decodeCommand v
    · rw [decodeWord_write v haddr]
      exact ⟨wellFormed_wr_iff.2 haddr, rfl⟩

/-- Only one word is CLR's. -/
theorem decodeWord_eq_clr_iff {w : TxnWord} : decodeWord w = .clr ↔ w = 0x100000000004#45 := by
  constructor
  · intro h
    obtain ⟨-, hw⟩ := encodeInvertsDecode w
    rw [← hw, h]
    decide
  · rintro rfl
    decide

/-- Settles O7. -/
theorem specWordsDecode : Obligations.SpecWordsDecode := by
  unfold Obligations.SpecWordsDecode
  decide

end Sys2Proof.Machine
end

section
/-! PROOFS. The register map both ways, the registers as their reads show them, and their implemented bits
(10_state.md R21, R23; 20_memory.md R69). -/

namespace Sys2Proof.Machine

/-! ### The register map -/

theorem regAt_number_scalar : ∀ r ∈ Reg.scalars, regAt (BitVec.ofNat 12 r.number) = some r := by decide

/-- The scalar registers lie below the buffers. -/
theorem number_lt_of_mem_scalars : ∀ r ∈ Reg.scalars, r.number < 0x100 := by decide

theorem le_base (b : Buffer) : 0x100 ≤ b.base := by cases b <;> decide

theorem base_add_size_le (b : Buffer) : b.base + b.size ≤ 0x2C0 := by cases b <;> decide

theorem toNat_ofNat_element {b : Buffer} {i : Nat} (h : i < b.size) :
    (BitVec.ofNat 12 (b.base + i)).toNat = b.base + i :=
  Nat.mod_eq_of_lt (by have := base_add_size_le b; omega)

theorem mem_buffer_all (b : Buffer) : b ∈ Buffer.all := by cases b <;> decide

theorem buffers_disjoint : ∀ b ∈ Buffer.all, ∀ b' ∈ Buffer.all, b ≠ b' →
    b.base + b.size ≤ b'.base ∨ b'.base + b'.size ≤ b.base := by decide

/-- No two buffers share a number. -/
theorem buffer_eq_of_number {b b' : Buffer} {i j : Nat} (hi : i < b.size) (hj : j < b'.size)
    (h : b.base + i = b'.base + j) : b = b' := by
  refine Classical.byContradiction fun hne => ?_
  have := buffers_disjoint b (mem_buffer_all b) b' (mem_buffer_all b') hne
  omega

theorem holds_iff {b : Buffer} {n : Nat} : b.holds n = true ↔ b.base ≤ n ∧ n < b.base + b.size := by
  simp only [Buffer.holds, Bool.and_eq_true, Nat.ble_eq, Nat.blt_eq]

theorem holds_element {b : Buffer} {i : Nat} (h : i < b.size) : b.holds (b.base + i) = true :=
  holds_iff.2 (by omega)

/-- The only buffer that holds an element's number is its own. -/
theorem find_holds_element {b : Buffer} {i : Nat} (h : i < b.size) :
    (Buffer.all.find? fun b' => b'.holds (b.base + i)) = some b := by
  have hown : ∃ b' ∈ Buffer.all, b'.holds (b.base + i) = true := ⟨b, mem_buffer_all b, holds_element h⟩
  obtain ⟨b', hb'⟩ := Option.isSome_iff_exists.1 (List.find?_isSome.2 hown)
  have hholds : b'.holds (b.base + i) = true := List.find?_some (p := fun b' : Buffer => b'.holds (b.base + i)) hb'
  rw [holds_iff] at hholds
  have hnumber : b.base + i = b'.base + (b.base + i - b'.base) := by omega
  rw [hb', buffer_eq_of_number h (by omega) hnumber]

/-- Element `i` of a buffer is named by the number `base + i`. -/
theorem regAt_number_element {b : Buffer} {i : Nat} (h : i < b.size) :
    regAt (BitVec.ofNat 12 (b.base + i)) = some (.element b i) := by
  have hscalars : (Reg.scalars.find? fun r => r.number == b.base + i) = none := by
    rw [List.find?_eq_none]
    intro r hr
    have := number_lt_of_mem_scalars r hr
    have := le_base b
    simp only [beq_iff_eq]
    omega
  simp only [regAt, toNat_ofNat_element h, hscalars, find_holds_element h, Option.map_some, Nat.add_sub_cancel_left]

/-- A number names no register exactly when it is no scalar's and lies in no buffer. -/
theorem regAt_eq_none_iff {a : RegNum} :
    regAt a = none ↔
      (∀ r ∈ Reg.scalars, r.number ≠ a.toNat) ∧
        ∀ b ∈ Buffer.all, ¬(b.base ≤ a.toNat ∧ a.toNat < b.base + b.size) := by
  unfold regAt
  split
  next r hr =>
    simp only [reduceCtorEq, false_iff]
    rintro ⟨hnone, -⟩
    have hnumber : (r.number == a.toNat) = true := List.find?_some (p := fun r : Reg => r.number == a.toNat) hr
    exact hnone r (List.mem_of_find?_eq_some hr) (eq_of_beq hnumber)
  next hnone =>
    have hscalars : ∀ r ∈ Reg.scalars, r.number ≠ a.toNat :=
      fun r hr he => List.find?_eq_none.1 hnone r hr (beq_iff_eq.2 he)
    simp only [Option.map_eq_none_iff, List.find?_eq_none, holds_iff]
    exact ⟨fun h => ⟨hscalars, h⟩, fun h => h.2⟩

/-- Settles O11: scalar numbers one by one, elements and unassigned numbers by the buffers' bounds. -/
theorem addressMap : Obligations.AddressMap := by
  refine ⟨by decide, fun i => regAt_number_element (b := .txData), fun i => regAt_number_element (b := .txw),
    fun i => regAt_number_element (b := .rxw), fun i => regAt_number_element (b := .rxData), fun a => ?unassigned,
    fun a r h => ⟨regAt_number h, fun b i hr => (regAt_element (hr ▸ h)).1⟩⟩
  case unassigned =>
    rw [regAt_eq_none_iff]
    simp only [Reg.scalars, Reg.number, Buffer.all, Buffer.base, Buffer.size, List.forall_mem_cons, List.not_mem_nil,
      false_imp_iff, implies_true, and_true]
    omega

/-! ### A register's value and what a read shows of it -/

theorem bitWord_injective : ∀ {b b' : Bool}, bitWord b = bitWord b' → b = b' := by decide

@[simp] theorem lowByte_byteWord (b : Byte) : lowByte (byteWord b) = b := by
  apply BitVec.eq_of_toNat_eq
  simp only [lowByte, byteWord, BitVec.extractLsb'_toNat, BitVec.toNat_setWidth, Nat.shiftRight_zero]
  omega

theorem byteWord_injective {b b' : Byte} (h : byteWord b = byteWord b') : b = b' := by
  rw [← lowByte_byteWord b, h, lowByte_byteWord]

/-- The fields of a flags register stand in its byte. -/
theorem FrameFlags.ofByte_byte (f : FrameFlags) : FrameFlags.ofByte f.byte = f := by
  obtain ⟨fd, brs, esi⟩ := f
  revert fd brs esi
  decide

theorem FrameFlags.byte_injective {f f' : FrameFlags} (h : f.byte = f'.byte) : f = f' := by
  rw [← f.ofByte_byte, h, f'.ofByte_byte]

/-- The fields of a status register stand apart in its word (10_state.md R29). -/
theorem UnitStatus.word_injective {u u' : UnitStatus} (h : u.word = u'.word) : u = u' := by
  have hfields (u : UnitStatus) :
      (⟨u.word.getLsbD 0, u.word.getLsbD 1, u.word.extractLsb' 4 4⟩ : UnitStatus) = u := by
    obtain ⟨ok, err, code⟩ := u
    revert ok err code
    decide
  rw [← hfields u, h, hfields]

theorem DecodeStatus.word_injective {d d' : DecodeStatus} (h : d.word = d'.word) : d = d' := by
  have hfields (d : DecodeStatus) :
      (⟨d.word.getLsbD 0, d.word.getLsbD 1, d.word.getLsbD 2, d.word.getLsbD 3, d.word.extractLsb' 4 4⟩ :
        DecodeStatus) = d := by
    obtain ⟨ok, err, rx, tsValid, code⟩ := d
    revert ok err rx tsValid code
    decide
  rw [← hfields d, h, hfields]

theorem FaultStatus.word_injective {f f' : FaultStatus} (h : f.word = f'.word) : f = f' := by
  have hfields (f : FaultStatus) :
      (⟨f.word.getLsbD 0, f.word.getLsbD 1, f.word.extractLsb' 4 4⟩ : FaultStatus) = f := by
    obtain ⟨illcmd, badacc, code⟩ := f
    revert illcmd badacc code
    decide
  rw [← hfields f, h, hfields]

/-! ### Implemented bits -/

theorem and_not_allOnes (v : Word) : v &&& ~~~0xFFFFFFFF#32 = 0#32 := by
  rw [show ~~~0xFFFFFFFF#32 = 0#32 by decide, BitVec.and_zero]

theorem bitWord_and_not : ∀ b : Bool, bitWord b &&& ~~~0x1#32 = 0#32 := by decide

theorem byteWord_and_not (b : Byte) : byteWord b &&& ~~~0xFF#32 = 0#32 := by
  revert b
  decide

theorem FrameFlags.byteWord_byte_and_not (f : FrameFlags) : byteWord f.byte &&& ~~~0xE#32 = 0#32 := by
  obtain ⟨fd, brs, esi⟩ := f
  revert fd brs esi
  decide

theorem UnitStatus.word_and_not (u : UnitStatus) : u.word &&& ~~~0xF3#32 = 0#32 := by
  obtain ⟨ok, err, code⟩ := u
  revert ok err code
  decide

theorem DecodeStatus.word_and_not (d : DecodeStatus) : d.word &&& ~~~0xFF#32 = 0#32 := by
  obtain ⟨ok, err, rx, tsValid, code⟩ := d
  revert ok err rx tsValid code
  decide

theorem FaultStatus.word_and_not (f : FaultStatus) : f.word &&& ~~~0xF3#32 = 0#32 := by
  obtain ⟨illcmd, badacc, code⟩ := f
  revert illcmd badacc code
  decide

/-- Settles O12, by the kinds of registers: nothing, a bit, a byte, flags, a status, a whole word. -/
theorem unimplementedBitsReadZero : Obligations.UnimplementedBitsReadZero := by
  intro r s
  cases r with
  | cmd => exact BitVec.zero_and
  | cfg | lSjwPolicy => exact bitWord_and_not _
  | tStatus | eStatus => exact UnitStatus.word_and_not _
  | dStatus => exact DecodeStatus.word_and_not _
  | fault => exact FaultStatus.word_and_not _
  | txFlags | rxFlags => exact FrameFlags.byteWord_byte_and_not _
  | txChannel | txLen | txwLen | rxChannel | rxLen | rxwLen | element => exact byteWord_and_not _
  | _ => exact and_not_allOnes _

end Sys2Proof.Machine
end

section
/-! PROOFS. The codec's round trip: decoding the bytes of a wire frame gives the encoded Frame back, its length rounded
up to a canonical one (42_frame_decode.md R161, R162). -/

namespace Sys2Proof.Machine

open Sys2Proof.Safety

/-! ### The shape of a wire frame -/

theorem le32At_of_le32 {bs : List Byte} {i : Nat} {v : Word} (h : ∀ k < 4, byteAt bs (i + k) = byteAt (le32 v) k) :
    le32At bs i = v :=
  le32At_of_bytes (h 0 (by decide)) (h 1 (by decide)) (h 2 (by decide)) (h 3 (by decide))

/-- The flags byte of an FD frame carries its flags. -/
theorem ofByte_fdFlagsByte {f : FrameFlags} (h : f.fd = true) : FrameFlags.ofByte (fdFlagsByte f) = f := by
  rw [fdFlagsByte, FrameFlags.ofByte_byte, ← h]

/-- An FD packet's shape by its length code (42_frame_decode.md R152 check 3). -/
theorem wireShape_fd {bs : List Byte} {f : FrameFlags} {dlc : Nat} (hfd : f.fd = true) (hdlc : dlc ≤ 15)
    (hcode : byteAt bs 8 = BitVec.ofNat 8 dlc) (hflags : byteAt bs 10 = fdFlagsByte f) :
    wireShape bs = some ⟨dlc2len dlc, dlc2len dlc, f⟩ := by
  have hcode' : (BitVec.ofNat 8 dlc).toNat = dlc := Nat.mod_eq_of_lt (by omega)
  simp only [wireShape, hcode, hcode', hflags, ofByte_fdFlagsByte hfd, hfd, if_true, gt_iff_lt,
    if_neg (Nat.not_lt.2 hdlc)]

/-- A classic packet's shape by its length code (42_frame_decode.md R152 check 3). -/
theorem wireShape_classic {bs : List Byte} {n : Nat} (hn : n ≤ 8) (hcode : byteAt bs 8 = BitVec.ofNat 8 n)
    (hflags : byteAt bs 10 = 0#8) : wireShape bs = some ⟨8, n, .classic⟩ := by
  have hcode' : (BitVec.ofNat 8 n).toNat = n := Nat.mod_eq_of_lt (by omega)
  have hclassic : FrameFlags.ofByte 0#8 = .classic := by decide
  simp only [wireShape, hcode, hcode', hflags, hclassic, FrameFlags.classic, Bool.false_eq_true, if_false, gt_iff_lt,
    if_neg (Nat.not_lt.2 hn)]

/-! ### Decoding a wire frame -/

theorem tsBytes_le (tsOn : Bool) : tsBytes tsOn ≤ 4 := by cases tsOn <;> decide

/-- The length of a wire frame with the header's twelve bytes as a number (30_encoding.md R93). -/
theorem length_wireFrame (tsOn : Bool) (f : Frame) (dlc area : Nat) (fl : Byte) :
    (wireFrame tsOn f dlc area fl).length = 12 + area + tsBytes tsOn := wireFrame_length ..

/-- A Frame as its wire frame carries it: of the given length and flags, its data up to its own length, and its
timestamp only when wire frames have one. -/
def carriedFrame (tsOn : Bool) (f : Frame) (len : Nat) (flags : FrameFlags) : Frame where
  echoId := f.echoId
  canId := f.canId
  channel := f.channel
  flags := flags
  len := BitVec.ofNat 8 len
  data := (List.range 64).map fun i => if i < f.len.toNat then byteAt f.data i else 0#8
  ts := if tsOn then f.ts else 0#32

theorem byteAt_carriedFrame_data (tsOn : Bool) (f : Frame) (len : Nat) (flags : FrameFlags) {i : Nat} (hi : i < 64) :
    byteAt (carriedFrame tsOn f len flags).data i = if i < f.len.toNat then byteAt f.data i else 0#8 := by
  simp only [carriedFrame, byteAt, List.getD, List.getElem?_map, List.getElem?_range hi, Option.map_some,
    Option.getD_some]

/-- The fields of a Frame read from bytes that begin with its wire frame. -/
theorem frameOfWire_wireFrame {tsOn : Bool} {f : Frame} {dlc area len : Nat} {fl : Byte} {flags : FrameFlags}
    {bs : List Byte} (hlen : f.len.toNat ≤ len) (harea : len ≤ area)
    (hbs : ∀ i < 12 + area + tsBytes tsOn, byteAt bs i = byteAt (wireFrame tsOn f dlc area fl) i) :
    frameOfWire tsOn bs ⟨area, len, flags⟩ = carriedFrame tsOn f len flags := by
  have hheader (i : Nat) (hi : i < 12) : byteAt bs i = byteAt (wireHeader f dlc fl) i :=
    (hbs i (by omega)).trans (byteAt_wireFrame_header _ _ _ _ _ hi)
  have hecho : le32At bs 0 = f.echoId := le32At_of_bytes (hheader 0 (by decide)) (hheader 1 (by decide))
    (hheader 2 (by decide)) (hheader 3 (by decide))
  have hcan : le32At bs 4 = f.canId := le32At_of_bytes (hheader 4 (by decide)) (hheader 5 (by decide))
    (hheader 6 (by decide)) (hheader 7 (by decide))
  have hchannel : byteAt bs 9 = f.channel := hheader 9 (by decide)
  have hdata (i : Nat) : (if i < len then byteAt bs (12 + i) else 0#8) =
      if i < f.len.toNat then byteAt f.data i else 0#8 := by
    split
    next hi => rw [hbs _ (by omega), byteAt_wireFrame_data _ _ _ _ (by omega)]
    next hi => rw [if_neg (by omega)]
  have hts : (if tsOn then le32At bs (12 + area) else 0#32) = if tsOn then f.ts else 0#32 := by
    cases tsOn with
    | false => rfl
    | true =>
      simp only [if_true]
      refine le32At_of_le32 fun k hk => ?_
      rw [hbs _ (Nat.add_lt_add_left hk _), Nat.add_assoc, byteAt_wireFrame_timestamp]
  simp only [frameOfWire, carriedFrame, Config.hdrBytes, hecho, hcan, hchannel, hdata, hts]

/-- Decoding bytes that begin with a wire frame, given the shape its header has. -/
theorem decodeFrame_wireFrame {tsOn : Bool} {f : Frame} {dlc area len : Nat} {fl : Byte} {flags : FrameFlags}
    {bs : List Byte} (hlen : f.len.toNat ≤ len) (harea : len ≤ area) (hmax : area ≤ 64)
    (hshape : wireShape bs = some ⟨area, len, flags⟩)
    (hbs : ∀ i < 12 + area + tsBytes tsOn, byteAt bs i = byteAt (wireFrame tsOn f dlc area fl) i) :
    decodeFrame tsOn (12 + area + tsBytes tsOn) bs = some (carriedFrame tsOn f len flags) := by
  have hts := tsBytes_le tsOn
  have hmin : ¬12 + area + tsBytes tsOn < 12 := by omega
  have hmax' : ¬12 + area + tsBytes tsOn > 80 := by omega
  rw [decodeFrame, if_neg hmin, if_neg hmax', hshape]
  simp only [ne_eq, not_true, if_false, frameOfWire_wireFrame hlen harea hbs]

/-! ### The round trip -/

/-- The length a Frame comes back with: an FD length rounded up to a canonical one. -/
def carriedLen (f : Frame) : Nat := if f.flags.fd then dlc2len (len2dlc f.len.toNat) else f.len.toNat

/-- The flags a Frame comes back with. -/
def carriedFlags (f : Frame) : FrameFlags := if f.flags.fd then f.flags else .classic

/-- The codec's law for every Frame that the encoder accepts: bytes that begin with its encoding decode to the Frame,
its length and flags as the wire carries them (42_frame_decode.md R161, R162). -/
theorem decodeFrame_encodeFrame (tsOn : Bool) {f : Frame} (h : f.len.toNat ≤ if f.flags.fd then 64 else 8) :
    ∃ w, encodeFrame tsOn f = some w ∧ w.length ≤ 80 ∧
      ∀ bs, (∀ i < w.length, byteAt bs i = byteAt w i) →
        decodeFrame tsOn w.length bs = some (carriedFrame tsOn f (carriedLen f) (carriedFlags f)) := by
  have hts := tsBytes_le tsOn
  unfold encodeFrame carriedLen carriedFlags
  cases hfd : f.flags.fd with
  | true =>
    simp only [hfd, if_true] at h ⊢
    obtain ⟨hdlc, hfits⟩ := len2dlc_spec h
    have harea := dlc2len_le hdlc
    refine ⟨_, if_neg (Nat.not_lt.2 h), by rw [length_wireFrame]; omega, fun bs hbs => ?_⟩
    rw [length_wireFrame] at hbs ⊢
    have hheader (i : Nat) (hi : i < 12) := (hbs i (by omega)).trans (byteAt_wireFrame_header _ _ _ _ _ hi)
    exact decodeFrame_wireFrame hfits (Nat.le_refl _) harea
      (wireShape_fd hfd hdlc (hheader 8 (by decide)) (hheader 10 (by decide))) hbs
  | false =>
    simp only [hfd, Bool.false_eq_true, if_false] at h ⊢
    refine ⟨_, if_neg (Nat.not_lt.2 h), by rw [length_wireFrame]; omega, fun bs hbs => ?_⟩
    rw [length_wireFrame] at hbs ⊢
    have hheader (i : Nat) (hi : i < 12) := (hbs i (by omega)).trans (byteAt_wireFrame_header _ _ _ _ _ hi)
    exact decodeFrame_wireFrame (Nat.le_refl _) h (by decide)
      (wireShape_classic h (hheader 8 (by decide)) (hheader 10 (by decide))) hbs

/-- A canonical length comes back as it was. -/
theorem carriedLen_of_canonical {f : Frame}
    (h : if f.flags.fd then f.len.toNat ∈ Config.fdLengths else f.len.toNat ≤ 8) :
    (f.len.toNat ≤ if f.flags.fd then 64 else 8) ∧ carriedLen f = f.len.toNat := by
  unfold carriedLen
  split at h
  next hfd =>
    obtain ⟨c, hc, hlen⟩ := mem_fdLengths.1 h
    have hle : f.len.toNat ≤ 64 := hlen ▸ dlc2len_le hc
    rw [if_pos hfd, if_pos hfd]
    exact ⟨hle, (dlc2len_len2dlc_eq_iff hle).2 h⟩
  next hfd =>
    rw [if_neg hfd, if_neg hfd]
    exact ⟨h, rfl⟩

/-- Settles O35: the codec's law, with a canonical length unchanged. -/
theorem codecRoundTrip : Obligations.CodecRoundTrip := by
  intro tsOn f h
  obtain ⟨haccepted, hlen⟩ := carriedLen_of_canonical h
  obtain ⟨w, hw, hfits, hdecode⟩ := decodeFrame_encodeFrame tsOn haccepted
  refine ⟨w, _, hw, hdecode _ fun i hi => byteAt_zeroPadded w (by omega), rfl, rfl, rfl, rfl, ?length,
    fun i hi => byteAt_carriedFrame_data _ _ _ _ hi, rfl⟩
  case length => rw [carriedFrame, hlen, BitVec.ofNat_toNat, BitVec.setWidth_eq]

end Sys2Proof.Machine
end

section
/-! PROOFS. What an instruction may write, register by register: the frame of every meaning, and the steps of the port
(10_state.md sections 5 to 7; 20_memory.md section 3). -/

namespace Sys2Proof.Machine

open Sys2Proof.Safety

/-! ### The registers a number names -/

/-- A register of the map: a scalar one, or an element within its buffer. -/
def Reg.Assigned : Reg → Prop
  | .element b i => i < b.size
  | _ => True

theorem assigned_of_regAt {a : RegNum} {r : Reg} (h : regAt a = some r) : r.Assigned := by
  cases r with
  | element b i => exact (regAt_element h).1
  | _ => trivial

/-- Every register of the map is named by its own number. -/
theorem regAt_number_of_assigned {r : Reg} (h : r.Assigned) : regAt (BitVec.ofNat 12 r.number) = some r := by
  cases r with
  | element b i => exact regAt_number_element h
  | _ => exact regAt_number_scalar _ (by decide)

theorem number_injective {r r' : Reg} (h : r.Assigned) (h' : r'.Assigned) (e : r.number = r'.number) : r = r' := by
  have hr := regAt_number_of_assigned h
  rw [e, regAt_number_of_assigned h'] at hr
  exact (Option.some.inj hr).symm

/-! ### What an instruction may write -/

/-- The status register that takes a unit's errors (60_exceptions.md R230). -/
def Raiser.status : Raiser → Reg
  | .unitT => .tStatus
  | .unitE => .eStatus
  | .unitD => .dStatus
  | .hostPort => .fault

/-- Who writes a register: the unit whose result it is, else the host port (10_state.md sections 5 to 7). -/
def Reg.writer : Reg → Raiser
  | .tStatus | .btPropSeg | .btPhaseSeg1 | .btPhaseSeg2 | .btSjw | .btBrp | .btTq => .unitT
  | .eStatus | .txwLen | .element .txw _ => .unitE
  | .dStatus | .rxEchoId | .rxCanId | .rxChannel | .rxFlags | .rxLen | .rxTs | .element .rxData _ => .unitD
  | _ => .hostPort

/-- The registers an instruction may change: a unit its results, a kept WR its register, a refused access or command
FAULT, and CLR all. -/
def writes : Instr → Reg → Prop
  | .nop, _ => False
  | .tcalc, r => r.writer = .unitT
  | .fenc, r => r.writer = .unitE
  | .fdec, r => r.writer = .unitD
  | .clr, _ => True
  | .illegal _, r => r = .fault
  | .wr a v, r => if keepsContract (.wr a v) then regAt a = some r else r = .fault
  | .rd a v, r => keepsContract (.rd a v) = false ∧ r = .fault

theorem keepsContract_wr_iff {a : RegNum} {v : Word} :
    keepsContract (.wr a v) = true ↔ ∃ r, regAt a = some r ∧ r.access = .rw := by
  simp only [keepsContract, Option.any_eq_true, decide_eq_true_eq]

theorem keepsContract_rd_iff {a : RegNum} {v : Word} : keepsContract (.rd a v) = true ↔ ∃ r, regAt a = some r := by
  simp only [keepsContract, Option.isSome_iff_exists]

theorem keepsContract_wr_of_not_rw {a : RegNum} (v : Word) (h : ∀ r, regAt a = some r → r.access ≠ .rw) :
    keepsContract (.wr a v) = false := by
  rw [← Bool.not_eq_true, keepsContract_wr_iff]
  exact fun ⟨r, hr, hrw⟩ => h r hr hrw

theorem writes_wr_of_keepsContract {a : RegNum} {v : Word} {r : Reg} (h : keepsContract (.wr a v) = true) :
    writes (.wr a v) r ↔ regAt a = some r := by
  simp only [writes, h, if_true]

theorem writes_wr_of_violation {a : RegNum} {v : Word} {r : Reg} (h : keepsContract (.wr a v) = false) :
    writes (.wr a v) r ↔ r = .fault := by
  simp only [writes, h, Bool.false_eq_true, if_false]

/-! ### The frame of each shared operation -/

theorem status_writer (u : Raiser) : u.status.writer = u := by cases u <;> rfl

theorem readReg_raise {u : Raiser} {r : Reg} (k : ErrorKind) (s : State) (h : r ≠ u.status) :
    readReg r (raise k u s) = readReg r s := by
  cases u with
  | unitT | unitE | unitD | hostPort =>
    cases r with
    | tStatus | eStatus | dStatus | fault => first | rfl | exact absurd rfl h
    | _ => rfl

theorem readReg_returnValue (r : Reg) (v : Word) (s : State) : readReg r (returnValue v s) = readReg r s := by
  cases r <;> rfl

theorem readReg_writeBitTiming {r : Reg} (b : BitTiming) (s : State) (h : r.writer ≠ .unitT) :
    readReg r (writeBitTiming b s) = readReg r s := by
  cases r with
  | tStatus | btPropSeg | btPhaseSeg1 | btPhaseSeg2 | btSjw | btBrp | btTq => exact absurd rfl h
  | _ => rfl

/-- A unit's write of its buffer leaves the elements of the others alone. -/
theorem read_writeBytes_other_buffer (m : Memory) {b b' : Buffer} {i : Nat} (bs : List Byte) (hi : i < b'.size)
    (h : b' ≠ b) : (m.writeBytes b.base (zeroPadded b.size bs)).read (b'.base + i) = m.read (b'.base + i) := by
  refine Memory.read_writeBytes_outside m _ ?_
  have := buffers_disjoint b' (mem_buffer_all b') b (mem_buffer_all b) h
  rw [zeroPadded_length]
  omega

theorem readReg_writeWireFrame {r : Reg} (w : List Byte) (s : State) (hr : r.Assigned) (h : r.writer ≠ .unitE) :
    readReg r (writeWireFrame w s) = readReg r s := by
  cases r with
  | eStatus | txwLen => exact absurd rfl h
  | element b i =>
    have hne : b ≠ .txw := by
      rintro rfl
      exact h rfl
    simp only [readReg, writeWireFrame_mem]
    rw [read_writeBytes_other_buffer s.mem _ hr hne]
  | _ => simp only [readReg, writeWireFrame_regs]

theorem readReg_writeRxFrame {r : Reg} (tsOn : Bool) (f : Frame) (s : State) (hr : r.Assigned)
    (h : r.writer ≠ .unitD) : readReg r (writeRxFrame tsOn f s) = readReg r s := by
  cases r with
  | dStatus | rxEchoId | rxCanId | rxChannel | rxFlags | rxLen | rxTs => exact absurd rfl h
  | element b i =>
    have hne : b ≠ .rxData := by
      rintro rfl
      exact h rfl
    simp only [readReg, writeRxFrame_mem]
    rw [read_writeBytes_other_buffer s.mem _ hr hne]
  | _ => simp only [readReg, writeRxFrame_regs]

/-! ### The frame of every instruction -/

/-- A unit's error goes to a register that is its own to write. -/
theorem readReg_raise_of_writer {u : Raiser} {r : Reg} (k : ErrorKind) (s : State) (h : r.writer ≠ u) :
    readReg r (raise k u s) = readReg r s :=
  readReg_raise k s fun hr => h (hr ▸ status_writer u)

/-- An instruction leaves every register alone that it may not write. -/
theorem readReg_exec {i : Instr} {r : Reg} {s t : State} (h : exec i s = .next t) (hr : r.Assigned)
    (hw : ¬writes i r) : readReg r t = readReg r s := by
  cases i with
  | nop => rw [execNop_cases h]
  | clr => exact absurd trivial hw
  | illegal v =>
    rw [execIllegal_cases h]
    exact readReg_raise _ s hw
  | tcalc =>
    obtain ⟨b, -, rfl⟩ | ⟨-, rfl⟩ := execTcalc_cases h
    · exact readReg_writeBitTiming b s hw
    · exact readReg_raise_of_writer _ s hw
  | fenc =>
    obtain ⟨w, -, rfl⟩ | ⟨-, rfl⟩ := execFenc_cases h
    · exact readReg_writeWireFrame w s hr hw
    · exact readReg_raise_of_writer _ s hw
  | fdec =>
    obtain ⟨f, -, rfl⟩ | ⟨-, rfl⟩ := execFdec_cases h
    · exact readReg_writeRxFrame _ f s hr hw
    · exact readReg_raise_of_writer _ s hw
  | wr a v =>
    obtain ⟨r', hr', hrw, rfl⟩ | ⟨hnot, rfl⟩ := execWr_cases h
    · rw [writes_wr_of_keepsContract (keepsContract_wr_iff.2 ⟨r', hr', hrw⟩)] at hw
      refine readReg_writeReg_other v s fun e => hw ?_
      rw [number_injective hr (assigned_of_regAt hr') e, hr']
    · rw [writes_wr_of_violation (keepsContract_wr_of_not_rw v hnot)] at hw
      exact readReg_raise _ s hw
  | rd a v =>
    obtain ⟨r', -, rfl⟩ | ⟨hnone, rfl⟩ := execRd_cases h
    · exact readReg_returnValue r _ s
    · rw [readReg_returnValue]
      refine readReg_raise _ s fun hfault => hw ⟨?_, hfault⟩
      simp only [keepsContract, hnone, Option.isSome_none]

/-- The unit that runs an instruction; the host port where none does. -/
def unitOf : Instr → Raiser
  | .tcalc => .unitT
  | .fenc => .unitE
  | .fdec => .unitD
  | _ => .hostPort

theorem eq_tcalc_of_unitOf {i : Instr} (h : unitOf i = .unitT) : i = .tcalc := by
  cases i with
  | tcalc => rfl
  | _ => cases h

theorem eq_fenc_of_unitOf {i : Instr} (h : unitOf i = .unitE) : i = .fenc := by
  cases i with
  | fenc => rfl
  | _ => cases h

theorem eq_fdec_of_unitOf {i : Instr} (h : unitOf i = .unitD) : i = .fdec := by
  cases i with
  | fdec => rfl
  | _ => cases h

/-- The registers a host may write are no unit's results. -/
theorem writer_of_rw {r : Reg} (h : r.access = .rw) : r.writer = .hostPort := by
  cases r with
  | element b i =>
    cases b with
    | txData | rxw => rfl
    | txw | rxData => cases h
  | _ => first | rfl | cases h

/-- Every instruction but CLR writes only what its own unit, or the host port, writes. -/
theorem writer_of_writes {i : Instr} {r : Reg} (h : writes i r) (hclr : i ≠ .clr) : r.writer = unitOf i := by
  cases i with
  | nop => exact h.elim
  | tcalc | fenc | fdec => exact h
  | clr => exact absurd rfl hclr
  | illegal v => exact h ▸ rfl
  | wr a v =>
    cases hk : keepsContract (.wr a v) with
    | true =>
      obtain ⟨r', hr', hrw⟩ := keepsContract_wr_iff.1 hk
      rw [writes_wr_of_keepsContract hk, hr'] at h
      cases h
      exact writer_of_rw hrw
    | false =>
      rw [writes_wr_of_violation hk] at h
      exact h ▸ rfl
  | rd a v => exact h.2 ▸ rfl

/-- Every instruction but CLR leaves the results of the other units alone. -/
theorem readReg_exec_of_writer {i : Instr} {r : Reg} {s t : State} (h : exec i s = .next t) (hclr : i ≠ .clr)
    (hr : r.Assigned) (hw : r.writer ≠ unitOf i) : readReg r t = readReg r s :=
  readReg_exec h hr fun hwrites => hw (writer_of_writes hwrites hclr)

/-- Settles O44: a result is written by its own unit alone, and a register is the value its reads show. -/
theorem resultsAreWrittenOnlyByTheirUnit : Obligations.ResultsAreWrittenOnlyByTheirUnit := by
  intro i s t h hclr
  have hkeep {u : Raiser} (hu : u ≠ unitOf i) (r : Reg) (hr : r.Assigned) (hw : r.writer = u) :
      readReg r t = readReg r s := readReg_exec_of_writer h hclr hr (hw ▸ hu)
  refine ⟨fun hi => ?timing, fun hi => ?transmit, fun hi => ?receive⟩
  case timing =>
    have hu : Raiser.unitT ≠ unitOf i := fun e => hi (eq_tcalc_of_unitOf e.symm)
    exact ⟨UnitStatus.word_injective (hkeep hu .tStatus trivial rfl), hkeep hu .btPropSeg trivial rfl,
      hkeep hu .btPhaseSeg1 trivial rfl, hkeep hu .btPhaseSeg2 trivial rfl, hkeep hu .btSjw trivial rfl,
      hkeep hu .btBrp trivial rfl, hkeep hu .btTq trivial rfl⟩
  case transmit =>
    have hu : Raiser.unitE ≠ unitOf i := fun e => hi (eq_fenc_of_unitOf e.symm)
    exact ⟨UnitStatus.word_injective (hkeep hu .eStatus trivial rfl),
      byteWord_injective (hkeep hu .txwLen trivial rfl),
      fun k hk => byteWord_injective (hkeep hu (.element .txw k) hk rfl)⟩
  case receive =>
    have hu : Raiser.unitD ≠ unitOf i := fun e => hi (eq_fdec_of_unitOf e.symm)
    exact ⟨DecodeStatus.word_injective (hkeep hu .dStatus trivial rfl), hkeep hu .rxEchoId trivial rfl,
      hkeep hu .rxCanId trivial rfl, byteWord_injective (hkeep hu .rxChannel trivial rfl),
      FrameFlags.byte_injective (byteWord_injective (hkeep hu .rxFlags trivial rfl)),
      byteWord_injective (hkeep hu .rxLen trivial rfl), hkeep hu .rxTs trivial rfl,
      fun k hk => byteWord_injective (hkeep hu (.element .rxData k) hk rfl)⟩

/-- Beside WR and CLR no instruction writes an RW register. -/
theorem not_writes_of_rw {i : Instr} {r : Reg} (hrw : r.access = .rw) (hclr : i ≠ .clr) (hwr : ∀ a v, i ≠ .wr a v) :
    ¬writes i r := by
  have hwriter := writer_of_rw hrw
  have hfault : r ≠ .fault := by
    rintro rfl
    cases hrw
  intro hw
  cases i with
  | nop => exact hw
  | tcalc | fenc | fdec =>
    simp only [writes, hwriter] at hw
    cases hw
  | clr => exact hclr rfl
  | illegal v => exact hfault hw
  | wr a v => exact hwr a v rfl
  | rd a v => exact hfault hw.2

/-- Settles O45: the operands are RW registers, and a register is the value its reads show. -/
theorem operandsAreWrittenOnlyByTheHost : Obligations.OperandsAreWrittenOnlyByTheHost := by
  intro i s t h hclr hwr
  have hkeep (r : Reg) (hr : r.Assigned) (hrw : r.access = .rw) : readReg r t = readReg r s :=
    readReg_exec h hr (not_writes_of_rw hrw hclr hwr)
  exact ⟨bitWord_injective (hkeep .cfg trivial rfl), hkeep .tBitrate trivial rfl, hkeep .tClockHz trivial rfl,
    hkeep .tSamplePoint trivial rfl, hkeep .lBrpMax trivial rfl, hkeep .lSegMin trivial rfl,
    hkeep .lSegMax trivial rfl, hkeep .lSjwMax trivial rfl, bitWord_injective (hkeep .lSjwPolicy trivial rfl),
    hkeep .txEchoId trivial rfl, hkeep .txCanId trivial rfl, byteWord_injective (hkeep .txChannel trivial rfl),
    FrameFlags.byte_injective (byteWord_injective (hkeep .txFlags trivial rfl)),
    byteWord_injective (hkeep .txLen trivial rfl), hkeep .txTs trivial rfl,
    byteWord_injective (hkeep .rxwLen trivial rfl),
    fun k hk => byteWord_injective (hkeep (.element .txData k) hk rfl),
    fun k hk => byteWord_injective (hkeep (.element .rxw k) hk rfl)⟩

end Sys2Proof.Machine
end

section
/-! PROOFS. The port: what a step does with the oldest event, what a transaction returns, and what FAULT records of a
run (20_memory.md sections 3 and 6; 60_exceptions.md R230, R235; 70_reset_and_hazards.md R261, R271). -/

namespace Sys2Proof.Machine

open Sys2Proof.Safety

/-! ### One step -/

theorem step_transaction {s : State} {w : TxnWord} {rest : List PortEvent} (h : s.pending = .transaction w :: rest) :
    step s = exec (decodeWord w) { s with pending := rest } := by
  simp only [step, takeEvent, h]

theorem step_reset {s : State} {rest : List PortEvent} (h : s.pending = .reset :: rest) :
    step s = .next (clearRegisters { s with pending := rest }) := by
  simp only [step, takeEvent, h]

/-- Settles O3: every word decodes to a well-formed instruction. -/
theorem stepPerformsTheDecodedTransaction : Obligations.StepPerformsTheDecodedTransaction := by
  rintro s w rest i hp rfl
  exact ⟨(encodeInvertsDecode w).1, step_transaction hp⟩

/-- Settles O4: CLR is `clearRegisters` too. -/
theorem resetInputActsAsClr : Obligations.ResetInputActsAsClr := by
  intro s rest hp
  rw [step_reset hp]
  rfl

/-- Settles O5. -/
theorem nothingHappensWithoutATransaction : Obligations.NothingHappensWithoutATransaction := by
  intro s hp
  simp only [step, takeEvent, hp, idle]

/-- Settles O18: CLR leaves the fields of the port alone. -/
theorem clrResetsEveryRegister : Obligations.ClrResetsEveryRegister := ⟨by decide, fun _ => rfl⟩

/-! ### What a transaction leaves of the port -/

/-- No instruction touches what waits, and only a read returns something. -/
theorem exec_port {i : Instr} {s t : State} (h : exec i s = .next t) :
    t.pending = s.pending ∧ ((∀ a v, i ≠ .rd a v) → t.returned = s.returned) := by
  cases i with
  | nop =>
    rw [execNop_cases h]
    exact ⟨rfl, fun _ => rfl⟩
  | clr =>
    rw [execClr_cases h]
    exact ⟨clearRegisters_pending s, fun _ => clearRegisters_returned s⟩
  | illegal v =>
    rw [execIllegal_cases h]
    exact ⟨raise_pending .., fun _ => raise_returned ..⟩
  | tcalc =>
    obtain ⟨b, -, rfl⟩ | ⟨-, rfl⟩ := execTcalc_cases h
    · exact ⟨writeBitTiming_pending b s, fun _ => writeBitTiming_returned b s⟩
    · exact ⟨raise_pending .., fun _ => raise_returned ..⟩
  | fenc =>
    obtain ⟨w, -, rfl⟩ | ⟨-, rfl⟩ := execFenc_cases h
    · exact ⟨writeWireFrame_pending w s, fun _ => writeWireFrame_returned w s⟩
    · exact ⟨raise_pending .., fun _ => raise_returned ..⟩
  | fdec =>
    obtain ⟨f, -, rfl⟩ | ⟨-, rfl⟩ := execFdec_cases h
    · exact ⟨writeRxFrame_pending _ f s, fun _ => writeRxFrame_returned _ f s⟩
    · exact ⟨raise_pending .., fun _ => raise_returned ..⟩
  | wr a v =>
    obtain ⟨r, -, -, rfl⟩ | ⟨-, rfl⟩ := execWr_cases h
    · exact ⟨writeReg_pending r v s, fun _ => writeReg_returned r v s⟩
    · exact ⟨raise_pending .., fun _ => raise_returned ..⟩
  | rd a v =>
    refine ⟨?_, fun hrd => absurd rfl (hrd a v)⟩
    obtain ⟨r, -, rfl⟩ | ⟨-, rfl⟩ := execRd_cases h
    · exact returnValue_pending _ s
    · rw [returnValue_pending, raise_pending]

theorem exec_rd_returned {a : RegNum} {d : Word} {s t : State} (h : exec (.rd a d) s = .next t) :
    ∃ v, t.returned = s.returned ++ [v] := by
  obtain ⟨r, -, rfl⟩ | ⟨-, rfl⟩ := execRd_cases h
  · exact ⟨_, returnValue_returned _ s⟩
  · exact ⟨_, by rw [returnValue_returned, raise_returned]⟩

/-- 30_encoding.md R81: a word is a read exactly when its WR bit is 0. -/
theorem wrField_eq_zero_of_rd {w : TxnWord} {a : RegNum} {d : Word} (h : decodeWord w = .rd a d) : wrField w = 0#1 := by
  obtain ⟨-, hw⟩ := encodeInvertsDecode w
  rw [← hw, h, encode, wrField_txnWord]

theorem decodeWord_of_wrField_zero {w : TxnWord} (h : wrField w = 0#1) :
    decodeWord w = .rd (addrField w) (dataField w) := by
  rw [decodeWord, h, if_neg (by decide)]

/-- Settles O6: the WR bit tells a read, which returns one value, from every other transaction. -/
theorem everyTransactionCompletes : Obligations.EveryTransactionCompletes := by
  intro s w rest hp
  obtain ⟨t, ht⟩ := exec_completes (decodeWord w) { s with pending := rest }
  obtain ⟨hpending, hreturned⟩ := exec_port ht
  refine ⟨t, (step_transaction hp).trans ht, hpending, ?_⟩
  obtain hread | hwrite := (wrField w).eq_zero_or_eq_one
  · rw [decodeWord_of_wrField_zero hread] at ht
    exact .inr ⟨hread, exec_rd_returned (s := { s with pending := rest }) ht⟩
  · refine .inl ⟨hwrite, hreturned fun a d hrd => ?_⟩
    rw [wrField_eq_zero_of_rd hrd] at hwrite
    cases hwrite

/-! ### What FAULT records -/

theorem not_writes_fault {i : Instr} (hclr : i ≠ .clr) (hk : keepsContract i = true) : ¬writes i .fault := by
  intro hw
  cases i with
  | nop => exact hw
  | tcalc | fenc | fdec => cases hw
  | clr => exact hclr rfl
  | illegal v => cases hk
  | wr a v =>
    rw [writes_wr_of_keepsContract hk] at hw
    obtain ⟨r, hr, hrw⟩ := keepsContract_wr_iff.1 hk
    rw [hw] at hr
    cases hr
    cases hrw
  | rd a v => exact absurd hk (Bool.not_eq_true _ ▸ hw.1)

theorem fault_of_keepsContract {i : Instr} {s t : State} (h : exec i s = .next t) (hclr : i ≠ .clr)
    (hk : keepsContract i = true) : t.regs.fault = s.regs.fault :=
  FaultStatus.word_injective (readReg_exec (r := .fault) h trivial (not_writes_fault hclr hk))

/-- A refused access raises `BadAccess` (20_memory.md R67, R68). -/
theorem fault_of_refusedAccess {i : Instr} {s t : State} (h : exec i s = .next t) (hk : keepsContract i = false)
    (hillegal : ∀ v, i ≠ .illegal v) : t.regs.fault = ⟨s.regs.fault.illcmd, true, 4#4⟩ := by
  cases i with
  | nop | tcalc | fenc | fdec | clr => cases hk
  | illegal v => exact absurd rfl (hillegal v)
  | wr a v =>
    obtain ⟨r, hr, hrw, -⟩ | ⟨-, rfl⟩ := execWr_cases h
    · rw [keepsContract_wr_iff.2 ⟨r, hr, hrw⟩] at hk
      cases hk
    · rw [raise_badAccess]
  | rd a v =>
    obtain ⟨r, hr, -⟩ | ⟨-, rfl⟩ := execRd_cases h
    · rw [keepsContract_rd_iff.2 ⟨r, hr⟩] at hk
      cases hk
    · rw [returnValue_regs, raise_badAccess]

/-- Settles O47, by the two kinds of violation. -/
theorem faultRecordsExactlyTheViolations : Obligations.FaultRecordsExactlyTheViolations := by
  intro i s t _ hclr h
  refine ⟨fault_of_keepsContract h hclr, fun hk => ?_⟩
  split
  next hillegal =>
    obtain ⟨v, rfl⟩ := hillegal
    rw [execIllegal_cases h, raise_illegalCommand]
  next hillegal => exact fault_of_refusedAccess h hk fun v hv => hillegal ⟨v, hv⟩

/-- What a transaction other than CLR does to FAULT: nothing, unless it breaks the contract, and then it adds a flag. -/
theorem exec_fault_cases {w : TxnWord} {s t : State} (hw : w ≠ 0x100000000004#45)
    (h : exec (decodeWord w) s = .next t) :
    t.regs.fault = s.regs.fault ∨ (keepsContract (decodeWord w) = false ∧
      (t.regs.fault = ⟨true, s.regs.fault.badacc, 3#4⟩ ∨ t.regs.fault = ⟨s.regs.fault.illcmd, true, 4#4⟩)) := by
  have hclr : decodeWord w ≠ .clr := fun h => hw (decodeWord_eq_clr_iff.1 h)
  obtain ⟨hkept, hviolated⟩ := faultRecordsExactlyTheViolations _ s t (encodeInvertsDecode w).1 hclr h
  cases hk : keepsContract (decodeWord w) with
  | true => exact .inl (hkept hk)
  | false =>
    have hfault := hviolated hk
    split at hfault
    next => exact .inr ⟨rfl, .inl hfault⟩
    next => exact .inr ⟨rfl, .inr hfault⟩

/-- Settles O46. -/
theorem faultFlagsAreSticky : Obligations.FaultFlagsAreSticky := by
  intro s t w rest hp hw h
  rw [step_transaction hp] at h
  obtain hfault | ⟨-, hfault | hfault⟩ := exec_fault_cases hw h
  · rw [hfault]
    exact ⟨id, id⟩
  · rw [hfault]
    exact ⟨fun _ => rfl, id⟩
  · rw [hfault]
    exact ⟨id, fun _ => rfl⟩

/-! ### What FAULT records of a run -/

theorem step_completes (s : State) : ∃ t, step s = .next t := by
  match hp : s.pending with
  | [] => exact ⟨s, nothingHappensWithoutATransaction s hp⟩
  | .reset :: rest => exact ⟨_, step_reset hp⟩
  | .transaction w :: rest =>
    rw [step_transaction hp]
    exact exec_completes ..

theorem run_of_step {k : Nat} {s u : State} (h : step s = .next u) :
    Sys2Proof.core.run (k + 1) s = Sys2Proof.core.run k u := by
  have hcore : Sys2Proof.core.step s = .next u := h
  simp only [Host.Core.run, hcore]

theorem step_of_run {k : Nat} {s t : State} (h : Sys2Proof.core.run (k + 1) s = .next t) :
    ∃ u, step s = .next u ∧ Sys2Proof.core.run k u = .next t := by
  obtain ⟨u, hu⟩ := step_completes s
  exact ⟨u, hu, (run_of_step hu).symm.trans h⟩

theorem step_pending {s t : State} {e : PortEvent} {rest : List PortEvent} (hp : s.pending = e :: rest)
    (h : step s = .next t) : t.pending = rest := by
  cases e with
  | reset =>
    rw [step_reset hp] at h
    cases h
    rfl
  | transaction w =>
    rw [step_transaction hp] at h
    exact (exec_port h).1

/-- An event that does not clear FAULT. -/
def KeepsFault (e : PortEvent) : Prop := e ≠ .reset ∧ e ≠ .transaction 0x100000000004#45

/-- One event clears FAULT, leaves it alone, or is a violation. -/
theorem step_fault_cases {s t : State} {e : PortEvent} {rest : List PortEvent} (hp : s.pending = e :: rest)
    (h : step s = .next t) :
    t.regs.fault = .clear ∨ (KeepsFault e ∧ t.regs.fault = s.regs.fault) ∨
      ∃ w, e = .transaction w ∧ keepsContract (decodeWord w) = false := by
  cases e with
  | reset =>
    rw [step_reset hp] at h
    cases h
    exact .inl rfl
  | transaction w =>
    rw [step_transaction hp] at h
    by_cases hw : w = 0x100000000004#45
    · rw [decodeWord_eq_clr_iff.2 hw] at h
      rw [execClr_cases h]
      exact .inl rfl
    · obtain hfault | ⟨hk, -⟩ := exec_fault_cases hw h
      · exact .inr (.inl ⟨⟨PortEvent.noConfusion, fun he => hw (PortEvent.transaction.inj he)⟩, hfault⟩)
      · exact .inr (.inr ⟨w, rfl, hk⟩)

/-- The events hold a violation with nothing after it that clears FAULT. -/
def HoldsViolation (es : List PortEvent) : Prop :=
  ∃ before w after, es = before ++ .transaction w :: after ∧ keepsContract (decodeWord w) = false ∧
    ∀ e ∈ after, KeepsFault e

theorem HoldsViolation.cons {es : List PortEvent} (e : PortEvent) (h : HoldsViolation es) :
    HoldsViolation (e :: es) := by
  obtain ⟨before, w, after, rfl, hk, hafter⟩ := h
  exact ⟨e :: before, w, after, rfl, hk, hafter⟩

/-- A run that ends with FAULT set began with FAULT set and never cleared it, or holds a violation. -/
theorem fault_of_run {es : List PortEvent} {s t : State} (hp : s.pending = es)
    (hrun : Sys2Proof.core.run es.length s = .next t) (hfault : t.regs.fault.word ≠ 0#32) :
    (s.regs.fault.word ≠ 0#32 ∧ ∀ e ∈ es, KeepsFault e) ∨ HoldsViolation es := by
  induction es generalizing s with
  | nil =>
    cases hrun
    exact .inl ⟨hfault, fun _ he => absurd he List.not_mem_nil⟩
  | cons e rest ih =>
    obtain ⟨u, hstep, hrest⟩ := step_of_run hrun
    obtain ⟨hu, hkeep⟩ | hviolation := ih (step_pending hp hstep) hrest
    · obtain hclear | ⟨he, hsame⟩ | ⟨w, rfl, hk⟩ := step_fault_cases hp hstep
      · rw [hclear] at hu
        exact absurd (by decide) hu
      · exact .inl ⟨hsame ▸ hu, List.forall_mem_cons.2 ⟨he, hkeep⟩⟩
      · exact .inr ⟨[], w, rest, rfl, hk, hkeep⟩
    · exact .inr (hviolation.cons e)

/-- Settles O48, by induction on the events of the run. -/
theorem faultyRunContainsAViolation : Obligations.FaultyRunContainsAViolation := by
  intro s t hclear hrun hfault
  obtain ⟨hset, -⟩ | hviolation := fault_of_run rfl hrun hfault
  · exact absurd hclear hset
  · exact hviolation

end Sys2Proof.Machine
end

section
/-! PROOFS. The five invariants: memory, status registers, BT_*, TXW and the RX frame, each kept by every step
(10_state.md sections 1, 2 and 5 to 7). -/

namespace Sys2Proof.Machine

open Sys2Proof.Safety

/-- Settles O43. -/
theorem resetStateIsLegal : Obligations.ResetStateIsLegal := by
  unfold Obligations.ResetStateIsLegal
  decide

/-- An invariant of the registers and the memory holds after every step when clearing the registers establishes it and
every instruction but CLR keeps it. -/
theorem step_keeps {P : State → Prop} (hport : ∀ s pending, P s → P { s with pending := pending })
    (hclear : ∀ s, P (clearRegisters s)) (hexec : ∀ i s t, i ≠ .clr → P s → exec i s = .next t → P t) {s t : State}
    (hs : P s) (h : step s = .next t) : P t := by
  obtain ⟨-, rfl⟩ | ⟨rest, -, rfl⟩ | ⟨w, rest, -, h⟩ := step_cases h
  · exact hs
  · exact hclear _
  · by_cases hclr : decodeWord w = .clr
    · rw [hclr] at h
      rw [execClr_cases h]
      exact hclear _
    · exact hexec _ _ _ hclr (hport s rest hs) h

/-! ### Memory -/

/-- A host write writes at most one byte of a buffer. -/
theorem writeReg_mem {r : Reg} (v : Word) (s : State) (hr : r.Assigned) :
    ∃ (b : Buffer) (k : Nat) (bs : List Byte), k + bs.length ≤ b.size ∧
      (writeReg r v s).mem = s.mem.writeBytes (b.base + k) bs := by
  cases r with
  | element b i =>
    cases b with
    | txData => exact ⟨.txData, i, [lowByte v], hr, rfl⟩
    | rxw => exact ⟨.rxw, i, [lowByte v], hr, rfl⟩
    | txw | rxData => exact ⟨.txw, 0, [], Nat.zero_le _, rfl⟩
  | _ => exact ⟨.txw, 0, [], Nat.zero_le _, rfl⟩

/-- Every instruction but CLR writes one run of bytes, possibly none, within one buffer. -/
theorem exec_mem {i : Instr} {s t : State} (h : exec i s = .next t) (hclr : i ≠ .clr) :
    ∃ (b : Buffer) (k : Nat) (bs : List Byte), k + bs.length ≤ b.size ∧
      t.mem = s.mem.writeBytes (b.base + k) bs := by
  have hkept {t : State} (ht : t.mem = s.mem) : ∃ (b : Buffer) (k : Nat) (bs : List Byte), k + bs.length ≤ b.size ∧
      t.mem = s.mem.writeBytes (b.base + k) bs := ⟨.txw, 0, [], Nat.zero_le _, ht⟩
  cases i with
  | nop => exact hkept (by rw [execNop_cases h])
  | clr => exact absurd rfl hclr
  | illegal v => exact hkept (by rw [execIllegal_cases h, raise_mem])
  | tcalc =>
    obtain ⟨b, -, rfl⟩ | ⟨-, rfl⟩ := execTcalc_cases h
    · exact hkept (writeBitTiming_mem b s)
    · exact hkept (raise_mem ..)
  | fenc =>
    obtain ⟨w, -, rfl⟩ | ⟨-, rfl⟩ := execFenc_cases h
    · exact ⟨.txw, 0, zeroPadded Buffer.txw.size w, Nat.le_of_eq (by rw [zeroPadded_length, Nat.zero_add]),
        writeWireFrame_mem w s⟩
    · exact hkept (raise_mem ..)
  | fdec =>
    obtain ⟨f, -, rfl⟩ | ⟨-, rfl⟩ := execFdec_cases h
    · exact ⟨.rxData, 0, zeroPadded Buffer.rxData.size f.data, Nat.le_of_eq (by rw [zeroPadded_length, Nat.zero_add]),
        writeRxFrame_mem _ f s⟩
    · exact hkept (raise_mem ..)
  | wr a v =>
    obtain ⟨r, hr, -, rfl⟩ | ⟨-, rfl⟩ := execWr_cases h
    · exact writeReg_mem v s (assigned_of_regAt hr)
    · exact hkept (raise_mem ..)
  | rd a v =>
    obtain ⟨r, -, rfl⟩ | ⟨-, rfl⟩ := execRd_cases h
    · exact hkept (returnValue_mem _ s)
    · exact hkept (by rw [returnValue_mem, raise_mem])

/-- A run of writes within one buffer keeps a memory legal. -/
theorem memoryLegal_writeBytes {m : Memory} {b : Buffer} {k : Nat} {bs : List Byte} (h : MemoryLegal m)
    (hk : k + bs.length ≤ b.size) : MemoryLegal (m.writeBytes (b.base + k) bs) := by
  obtain ⟨hwf, hcells⟩ := h
  refine ⟨Memory.wf_writeBytes _ bs hwf, fun c hc => ?_⟩
  obtain hold | ⟨hlower, hupper⟩ := Memory.mem_writeBytes hc
  · exact hcells c hold
  · exact List.any_eq_true.2 ⟨b, mem_buffer_all b, holds_iff.2 (by omega)⟩

theorem memoryLegal_exec {i : Instr} {s t : State} (hclr : i ≠ .clr) (hs : MemoryLegal s.mem)
    (h : exec i s = .next t) : MemoryLegal t.mem := by
  obtain ⟨b, k, bs, hk, hmem⟩ := exec_mem h hclr
  rw [hmem]
  exact memoryLegal_writeBytes hs hk

/-- Settles O38: the only writes are runs within one buffer. -/
theorem memoryStaysLegal : Obligations.MemoryStaysLegal := fun _ _ hs h =>
  step_keeps (P := fun s => MemoryLegal s.mem) (fun _ _ h => h) (fun _ => resetStateIsLegal.1)
    (fun _ _ _ => memoryLegal_exec) hs h

/-! ### The status registers -/

theorem tStatusLegal_exec {i : Instr} {s t : State} (hclr : i ≠ .clr)
    (hs : UnitStatusLegal .unsupportedBitrate s.regs.tStatus) (h : exec i s = .next t) :
    UnitStatusLegal .unsupportedBitrate t.regs.tStatus := by
  by_cases hi : i = .tcalc
  · subst hi
    obtain ⟨b, -, rfl⟩ | ⟨-, rfl⟩ := execTcalc_cases h
    · exact .inr (.inl rfl)
    · exact .inr (.inr rfl)
  · obtain ⟨hstatus, -⟩ := (resultsAreWrittenOnlyByTheirUnit i s t h hclr).1 hi
    rwa [hstatus]

theorem eStatusLegal_exec {i : Instr} {s t : State} (hclr : i ≠ .clr)
    (hs : UnitStatusLegal .invalidFrame s.regs.eStatus) (h : exec i s = .next t) :
    UnitStatusLegal .invalidFrame t.regs.eStatus := by
  by_cases hi : i = .fenc
  · subst hi
    obtain ⟨w, -, rfl⟩ | ⟨-, rfl⟩ := execFenc_cases h
    · rw [writeWireFrame_regs]
      exact .inr (.inl rfl)
    · exact .inr (.inr rfl)
  · obtain ⟨-, htransmit, -⟩ := resultsAreWrittenOnlyByTheirUnit i s t h hclr
    obtain ⟨hstatus, -⟩ := htransmit hi
    rwa [hstatus]

theorem dStatusLegal_exec {i : Instr} {s t : State} (hclr : i ≠ .clr) (hs : DecodeStatusLegal s.regs.dStatus)
    (h : exec i s = .next t) : DecodeStatusLegal t.regs.dStatus := by
  by_cases hi : i = .fdec
  · subst hi
    obtain ⟨f, -, rfl⟩ | ⟨-, rfl⟩ := execFdec_cases h
    · rw [writeRxFrame_regs]
      exact .inr (.inr rfl)
    · exact .inr (.inl rfl)
  · obtain ⟨-, -, hreceive⟩ := resultsAreWrittenOnlyByTheirUnit i s t h hclr
    obtain ⟨hstatus, -⟩ := hreceive hi
    rwa [hstatus]

/-- FAULT's CODE is that of the latest violation, whose flag is set with it. -/
theorem faultStatusLegal_exec {i : Instr} {s t : State} (hclr : i ≠ .clr) (hs : FaultStatusLegal s.regs.fault)
    (h : exec i s = .next t) : FaultStatusLegal t.regs.fault := by
  cases hk : keepsContract i with
  | true => rwa [fault_of_keepsContract h hclr hk]
  | false =>
    by_cases hillegal : ∃ v, i = .illegal v
    · obtain ⟨v, rfl⟩ := hillegal
      rw [execIllegal_cases h, raise_illegalCommand]
      exact .inr (.inl ⟨rfl, rfl⟩)
    · rw [fault_of_refusedAccess h hk fun v hv => hillegal ⟨v, hv⟩]
      exact .inr (.inr ⟨rfl, rfl⟩)

/-- Settles O39, register by register. -/
theorem statusStaysLegal : Obligations.StatusStaysLegal := by
  intro s t hs h
  obtain ⟨-, hreset, -⟩ := resetStateIsLegal
  refine step_keeps (P := fun s => StatusLegal s.regs) (fun _ _ h => h) (fun _ => hreset) ?_ hs h
  rintro i s t hclr ⟨htiming, htransmit, hreceive, hfault⟩ h
  exact ⟨tStatusLegal_exec hclr htiming h, eStatusLegal_exec hclr htransmit h, dStatusLegal_exec hclr hreceive h,
    faultStatusLegal_exec hclr hfault h⟩

/-! ### BT_* -/

/-- R33 of what TCALC computed gives the document's invariants of a BitTiming. -/
theorem soundBitTiming_of_isExact {o : TimingOperands} {r : Regs} (hlo : 1 ≤ o.lo) (h : (bitTimingIn r).IsExact o) :
    SoundBitTiming r := by
  have hsegments := h.segments
  simp only [List.forall_mem_cons] at hsegments
  obtain ⟨⟨hprop, -⟩, ⟨hps1, -⟩, ⟨hps2, -⟩, -⟩ := hsegments
  exact ⟨h.tq_eq, Nat.le_trans hlo hprop, Nat.le_trans hlo hps1, Nat.le_trans hlo hps2, h.brp_bounds.1, h.sjw_bounds⟩

theorem bitTimingLegal_tcalc {s t : State} (hs : BitTimingLegal s.regs) (h : exec .tcalc s = .next t) :
    BitTimingLegal t.regs := by
  obtain ⟨b, -, rfl⟩ | ⟨-, rfl⟩ := execTcalc_cases h
  · exact .inr (soundBitTiming_of_isExact (one_le_timingOperands_lo s) (bitTimingIn_isExact_of_execTcalc h rfl))
  · obtain ⟨hnone, -⟩ | hsound := hs
    · exact .inl ⟨hnone, rfl⟩
    · exact .inr hsound

/-- Settles O40: only TCALC writes BT_*, and what it writes is sound. -/
theorem bitTimingStaysSound : Obligations.BitTimingStaysSound := by
  intro s t hs h
  obtain ⟨-, -, hreset, -⟩ := resetStateIsLegal
  refine step_keeps (P := fun s => BitTimingLegal s.regs) (fun _ _ h => h) (fun _ => hreset) ?_ hs h
  intro i s t hclr hs h
  by_cases hi : i = .tcalc
  · exact bitTimingLegal_tcalc hs (hi ▸ h)
  · obtain ⟨hstatus, hprop, hps1, hps2, hsjw, hbrp, htq⟩ := (resultsAreWrittenOnlyByTheirUnit i s t h hclr).1 hi
    simpa only [BitTimingLegal, NoBitTiming, SoundBitTiming, hstatus, hprop, hps1, hps2, hsjw, hbrp, htq] using hs

/-! ### TXW -/

theorem txArea_mem_fdLengths {s : State} (h : FrameAccepted s) : txArea s ∈ Config.fdLengths := by
  unfold txArea
  split
  · exact mem_fdLengths.2 ⟨txDlc s, txDlc_le h, rfl⟩
  · decide

theorem wireLength_mem_wireLengths {s : State} {area : Nat} (h : area ∈ Config.fdLengths) :
    wireLength s area ∈ wireLengths := by
  refine List.mem_flatMap.2 ⟨area, h, ?_⟩
  unfold wireLength
  split
  · exact List.mem_cons_of_mem _ (List.mem_singleton_self _)
  · exact List.mem_cons_self

theorem txWireLegal_fenc {s t : State} (hwf : s.mem.wf = true) (hs : TxWireLegal s) (h : exec .fenc s = .next t) :
    TxWireLegal t := by
  by_cases hacc : FrameAccepted s
  · obtain rfl : writeWireFrame (txWire s) s = t := by
      rw [exec_fenc_of_accepted hacc] at h
      exact Host.Outcome.next.inj h
    obtain ⟨-, -, -, -, -, -, -, -, hpad, hlen⟩ := holdsWireFrame_writeWireFrame hwf hacc
    unfold TxWireLegal
    rw [hlen]
    exact ⟨.inr (wireLength_mem_wireLengths (txArea_mem_fdLengths hacc)), hpad⟩
  · rw [exec_fenc_of_not_accepted hacc] at h
    cases h
    obtain ⟨hlen, hpad⟩ := hs
    exact ⟨hlen.imp_left fun hnone => ⟨hnone.1, rfl⟩, hpad⟩

/-- Settles O41: only FENC writes TXW and its length. -/
theorem txWireStaysLegal : Obligations.TxWireStaysLegal := by
  intro s t hmem hs h
  obtain ⟨hresetMem, -, -, hreset, -⟩ := resetStateIsLegal
  refine (step_keeps (P := fun s => MemoryLegal s.mem ∧ TxWireLegal s) (fun _ _ h => h)
    (fun _ => ⟨hresetMem, hreset⟩) ?_ ⟨hmem, hs⟩ h).2
  rintro i s t hclr ⟨hmem, hs⟩ h
  refine ⟨memoryLegal_exec hclr hmem h, ?_⟩
  by_cases hi : i = .fenc
  · exact txWireLegal_fenc hmem.1 hs (hi ▸ h)
  · obtain ⟨-, htransmit, -⟩ := resultsAreWrittenOnlyByTheirUnit i s t h hclr
    obtain ⟨hstatus, hlen, htxw⟩ := htransmit hi
    obtain ⟨hlegal, hpad⟩ := hs
    unfold TxWireLegal
    rw [hstatus, hlen]
    exact ⟨hlegal, fun k hk hend => (htxw k hk).trans (hpad k hk hend)⟩

/-! ### The RX frame -/

/-- An accepted packet's flags and length are those of a Frame (10_state.md R37). -/
theorem packetFrame_flags_len {s : State} (h : PacketAccepted s) :
    ((packetFrame s).flags.fd = false →
        (packetFrame s).flags = .classic ∧ (packetFrame s).len.toNat ≤ Config.classicMax) ∧
      ((packetFrame s).flags.fd = true → (packetFrame s).len.toNat ∈ Config.fdLengths) := by
  have hflags : (packetFrame s).flags = if packetFd s then .ofByte (packetByte s 10) else .classic := rfl
  have hlen : (packetFrame s).len.toNat = if packetFd s then dlc2len (packetDlc s) else packetDlc s :=
    packetFrame_len h
  obtain ⟨-, -, hdlc, -⟩ := h
  rw [hflags, hlen]
  cases hfd : packetFd s with
  | true =>
    rw [hfd] at hdlc
    have hbit : (FrameFlags.ofByte (packetByte s 10)).fd = true := hfd
    exact ⟨fun hclassic => absurd (hbit.symm.trans hclassic) (by decide),
      fun _ => mem_fdLengths.2 ⟨packetDlc s, hdlc, rfl⟩⟩
  | false =>
    rw [hfd] at hdlc
    exact ⟨fun _ => ⟨rfl, hdlc⟩, fun hclassic => by cases hclassic⟩

theorem rxFrameLegal_fdec {s t : State} (hwf : s.mem.wf = true) (hs : RxFrameLegal s) (h : exec .fdec s = .next t) :
    RxFrameLegal t := by
  by_cases hacc : PacketAccepted s
  · obtain rfl : writeRxFrame s.regs.cfgHwTs (packetFrame s) s = t := by
      rw [exec_fdec_of_accepted hacc] at h
      exact Host.Outcome.next.inj h
    obtain ⟨hclassic, hfd⟩ := packetFrame_flags_len hacc
    have hpad (i : Nat) (hi : i < 64) (hend : (packetFrame s).len.toNat ≤ i) :
        (writeRxFrame s.regs.cfgHwTs (packetFrame s) s).mem.read (Buffer.rxData.base + i) = 0#8 := by
      have hdata := byteAt_packetFrame_data hacc hi
      rw [if_neg (Nat.not_lt.2 hend)] at hdata
      exact (read_writeRxFrame_rxData hwf _ _ hi).trans hdata
    unfold RxFrameLegal
    rw [writeRxFrame_regs]
    exact ⟨hclassic, hfd, hpad, fun _ => ⟨rfl, packetFrame_ts_of_off⟩⟩
  · rw [exec_fdec_of_not_accepted hacc] at h
    cases h
    obtain ⟨hclassic, hfd, hpad, -⟩ := hs
    exact ⟨hclassic, hfd, hpad, fun hok => by cases hok⟩

/-- Settles O42: only FDEC writes the RX registers and RX_DATA. -/
theorem rxFrameStaysLegal : Obligations.RxFrameStaysLegal := by
  intro s t hmem hs h
  obtain ⟨hresetMem, -, -, -, hreset⟩ := resetStateIsLegal
  refine (step_keeps (P := fun s => MemoryLegal s.mem ∧ RxFrameLegal s) (fun _ _ h => h)
    (fun _ => ⟨hresetMem, hreset⟩) ?_ ⟨hmem, hs⟩ h).2
  rintro i s t hclr ⟨hmem, hs⟩ h
  refine ⟨memoryLegal_exec hclr hmem h, ?_⟩
  by_cases hi : i = .fdec
  · exact rxFrameLegal_fdec hmem.1 hs (hi ▸ h)
  · obtain ⟨-, -, hreceive⟩ := resultsAreWrittenOnlyByTheirUnit i s t h hclr
    obtain ⟨hstatus, hecho, -, -, hflags, hlen, hts, hdata⟩ := hreceive hi
    obtain ⟨hclassic, hfd, hpad, hok⟩ := hs
    unfold RxFrameLegal
    rw [hstatus, hecho, hflags, hlen, hts]
    exact ⟨hclassic, hfd, fun k hk hend => (hdata k hk).trans (hpad k hk hend), hok⟩

end Sys2Proof.Machine
end

section
/-! PROOFS. What the units read: the candidates of unit T and its operands, and the bytes that FENC and FDEC look at;
so each unit's command twice is as once (40_timing.md R102, R105, R120; 41_frame_encode.md R130; 42_frame_decode.md
R150, R159; 20_memory.md R66). -/

namespace Sys2Proof.Machine

open Sys2Proof.Safety

/-! ### Unit T -/

/-- Settles O20. -/
theorem searchListsExactlyTheCandidates : Obligations.SearchListsExactlyTheCandidates :=
  fun _ _ => mem_candidates_iff

/-- What a candidate asks of the operands (40_timing.md R120 lists the operands that fail it). -/
theorem operands_of_isCandidate {o : TimingOperands} {c : Candidate} (h : IsCandidate o c) :
    o.bitrate ≠ 0 ∧ o.bitrate ∣ o.clockHz ∧ 0 < o.clockHz ∧ 1 ≤ o.brpMax ∧ o.lo ≤ o.hi := by
  have hclock : o.clockHz = o.bitrate * (c.brp * c.q) := by
    rw [clockHz_eq_of_isCandidate h, Nat.mul_comm c.brp, Nat.mul_assoc]
  have hpos := clockHz_pos_of_isCandidate h
  obtain ⟨⟨hbrp, hbrpMax, hd, -⟩, -, -, hps2⟩ := h
  exact ⟨Nat.ne_zero_of_mul_ne_zero_right hd, ⟨_, hclock⟩, hpos, Nat.le_trans hbrp hbrpMax, Nat.le_trans hps2.1 hps2.2⟩

/-- Settles O25: each degenerate operand misses something that a candidate asks for. -/
theorem tcalcRejectsDegenerateOperands : Obligations.TcalcRejectsDegenerateOperands := by
  intro s hdegenerate
  refine tcalcWithoutACandidateChangesOnlyStatus s fun ⟨c, hc⟩ => ?_
  obtain ⟨hbitrate, hdvd, hclock, hbrp, hsegments⟩ := operands_of_isCandidate hc
  have hle := Nat.le_of_dvd hclock hdvd
  have hmod := Nat.mod_eq_zero_of_dvd hdvd
  simp only [timingOperands] at hbitrate hdvd hclock hbrp hsegments hle hmod
  obtain h | h | h | h | h | h | h := hdegenerate
  · exact hbitrate (by rw [h]; rfl)
  · rw [h] at hclock
    exact absurd hclock (by decide)
  · rw [h] at hbrp
    exact absurd hbrp (by decide)
  · rw [h] at hsegments
    exact absurd (Nat.le_trans (Nat.le_max_left 1 _) hsegments) (by decide)
  · omega
  · omega
  · exact h hmod

theorem exec_tcalc_of_computeTiming {s : State} {b : BitTiming}
    (h : computeTiming Config.syncInSp (timingOperands s) = some b) : exec .tcalc s = .next (writeBitTiming b s) := by
  simp only [exec, execTcalc, h]

theorem exec_tcalc_of_computeTiming_none {s : State}
    (h : computeTiming Config.syncInSp (timingOperands s) = none) :
    exec .tcalc s = .next (raise .unsupportedBitrate .unitT s) := by
  simp only [exec, execTcalc, h]

/-- Settles O26: the computation is a function of the eight operands. -/
theorem tcalcReadsOnlyItsOperands : Obligations.TcalcReadsOnlyItsOperands := by
  intro s s' t t' hbitrate hclock hsp hbrp hlo hhi hsjw hpolicy h h'
  have hoperands : timingOperands s' = timingOperands s := by
    simp only [timingOperands, hbitrate, hclock, hsp, hbrp, hlo, hhi, hsjw, hpolicy]
  obtain ⟨b, hb, rfl⟩ | ⟨hnone, rfl⟩ := execTcalc_cases h
  · rw [exec_tcalc_of_computeTiming (hoperands ▸ hb)] at h'
    cases h'
    exact ⟨rfl, fun _ => ⟨rfl, rfl, rfl, rfl, rfl, rfl⟩⟩
  · rw [exec_tcalc_of_computeTiming_none (hoperands ▸ hnone)] at h'
    cases h'
    exact ⟨rfl, fun hok => by cases hok⟩

/-! ### Unit E -/

/-- The data area holds the data bytes below the length only. -/
theorem dataArea_congr {d d' : List Byte} {n : Nat} (area : Nat) (h : ∀ i < n, byteAt d i = byteAt d' i) :
    dataArea d n area = dataArea d' n area := by
  refine List.map_congr_left fun i _ => ?_
  split
  next hi => exact h i hi
  next => rfl

/-- Two states whose TX frames are the same on the wire (41_frame_encode.md R130's operands). -/
structure TxAgree (s s' : State) : Prop where
  hwTs : s.regs.cfgHwTs = s'.regs.cfgHwTs
  echoId : s.regs.txEchoId = s'.regs.txEchoId
  canId : s.regs.txCanId = s'.regs.txCanId
  channel : s.regs.txChannel = s'.regs.txChannel
  flags : s.regs.txFlags = s'.regs.txFlags
  len : s.regs.txLen = s'.regs.txLen
  ts : s.regs.cfgHwTs = true → s.regs.txTs = s'.regs.txTs
  data : ∀ i < s.regs.txLen.toNat, s.mem.read (0x100 + i) = s'.mem.read (0x100 + i)

theorem TxAgree.accepted_iff {s s' : State} (h : TxAgree s s') : FrameAccepted s ↔ FrameAccepted s' := by
  rw [FrameAccepted, FrameAccepted, h.flags, h.len]

theorem frameAccepted_len_le {s : State} (h : FrameAccepted s) : s.regs.txLen.toNat ≤ 64 := by
  unfold FrameAccepted at h
  split at h <;> omega

/-- The wire frame is a function of what the TX frames agree on. -/
theorem TxAgree.txWire_eq {s s' : State} (h : TxAgree s s') (hacc : FrameAccepted s) : txWire s = txWire s' := by
  have hlen := frameAccepted_len_le hacc
  have hdata : dataArea (readBuffer .txData s) s'.regs.txLen.toNat (txArea s') =
      dataArea (readBuffer .txData s') s'.regs.txLen.toNat (txArea s') := by
    have hbyte (s : State) {i : Nat} (hi : i < 64) : byteAt (readBuffer .txData s) i = s.mem.read (0x100 + i) :=
      Memory.byteAt_readBytes _ _ _ hi
    rw [← h.len]
    exact dataArea_congr _ fun i hi => by rw [hbyte s (by omega), hbyte s' (by omega), h.data i hi]
  have hdlc : txDlc s = txDlc s' := by rw [txDlc, txDlc, h.flags, h.len]
  have harea : txArea s = txArea s' := by rw [txArea, txArea, h.flags, hdlc]
  have hflagsByte : txFlagsByte s = txFlagsByte s' := by rw [txFlagsByte, txFlagsByte, h.flags]
  have hts : (if s'.regs.cfgHwTs then le32 s.regs.txTs else []) =
      if s'.regs.cfgHwTs then le32 s'.regs.txTs else [] :=
    ite_congr rfl (fun hon => congrArg le32 (h.ts (h.hwTs.trans hon))) fun _ => rfl
  simp only [txWire, wireFrame, txFrame, hdlc, harea, hflagsByte, h.hwTs, h.echoId, h.canId, h.channel, h.len, hdata,
    hts]

/-- Settles O30: what FENC writes is the wire frame, which the two states share. -/
theorem fencReadsOnlyItsOperands : Obligations.FencReadsOnlyItsOperands := by
  intro s s' t t' hwf hwf' hhwTs hecho hcan hchannel hflags hlen hts hdata h h'
  have hagree : TxAgree s s' := ⟨hhwTs, hecho, hcan, hchannel, hflags, hlen, hts, hdata⟩
  by_cases hacc : FrameAccepted s
  · rw [exec_fenc_of_accepted hacc] at h
    rw [exec_fenc_of_accepted (hagree.accepted_iff.1 hacc), ← hagree.txWire_eq hacc] at h'
    obtain rfl := Host.Outcome.next.inj h
    obtain rfl := Host.Outcome.next.inj h'
    rw [writeWireFrame_regs, writeWireFrame_regs]
    refine ⟨rfl, fun _ => ⟨rfl, fun i hi => ?_⟩⟩
    rw [read_writeWireFrame_txw hwf _ hi, read_writeWireFrame_txw hwf' _ hi]
  · rw [exec_fenc_of_not_accepted hacc] at h
    rw [exec_fenc_of_not_accepted fun hacc' => hacc (hagree.accepted_iff.2 hacc')] at h'
    cases h
    cases h'
    exact ⟨rfl, fun hok => by cases hok⟩

/-! ### Unit D -/

theorem le32At_congr {bs bs' : List Byte} {i : Nat} (h : ∀ k < 4, byteAt bs (i + k) = byteAt bs' (i + k)) :
    le32At bs i = le32At bs' i := by
  have h0 : byteAt bs i = byteAt bs' i := h 0 (by decide)
  rw [le32At, le32At, h0, h 1 (by decide), h 2 (by decide), h 3 (by decide)]

theorem packetDlc_eq_of_agree {s s' : State} (h : PacketsAgree s s') (hlen : 12 ≤ s.regs.rxwLen.toNat) :
    packetDlc s = packetDlc s' := by
  obtain ⟨-, -, hbytes, -⟩ := h
  exact congrArg BitVec.toNat (hbytes 8 (by omega) (by decide) (by decide) (by omega))

/-- Two packets that agree have one variant and one shape. -/
theorem packetShape_eq_of_agree {s s' : State} (h : PacketsAgree s s') (hlen : 12 ≤ s.regs.rxwLen.toNat) :
    packetFd s = packetFd s' ∧ packetShape s = packetShape s' := by
  have hdlc := packetDlc_eq_of_agree h hlen
  obtain ⟨-, -, -, hfd, hflags⟩ := h
  have hfd := hfd (by omega)
  have hshape : (if packetFd s then FrameFlags.ofByte (packetByte s 10) else .classic) =
      if packetFd s then FrameFlags.ofByte (packetByte s' 10) else .classic := by
    split
    next hon =>
      refine FrameFlags.byte_injective ?_
      rw [FrameFlags.byte_ofByte, FrameFlags.byte_ofByte, hflags (by omega) hon]
    next => rfl
  refine ⟨hfd, ?_⟩
  simp only [packetShape, packetArea, ← hdlc, ← hfd, hshape]

theorem packetAccepted_of_agree {s s' : State} (h : PacketsAgree s s') (hacc : PacketAccepted s) :
    PacketAccepted s' := by
  have hdlc := packetDlc_eq_of_agree h hacc.1
  obtain ⟨hfd, hshape⟩ := packetShape_eq_of_agree h hacc.1
  have harea : packetArea s = packetArea s' := congrArg WireShape.area hshape
  obtain ⟨hts, hlen, -⟩ := h
  unfold PacketAccepted at hacc ⊢
  rwa [← hts, ← hlen, ← hdlc, ← hfd, ← harea]

theorem packetsAgree_symm {s s' : State} (h : PacketsAgree s s') : PacketsAgree s' s := by
  have hsame (hlen : 12 ≤ s.regs.rxwLen.toNat) : packetDlc s = packetDlc s' ∧ packetFd s = packetFd s' :=
    ⟨packetDlc_eq_of_agree h hlen, (packetShape_eq_of_agree h hlen).1⟩
  obtain ⟨hts, hlen, hbytes, hfd, hflags⟩ := h
  unfold PacketsAgree
  rw [← hlen]
  refine ⟨hts.symm, rfl, fun i hi h10 h11 hpad => (hbytes i hi h10 h11 fun hp => hpad ?_).symm,
    fun hi => (hfd hi).symm, fun hi hon => (hflags hi ((hfd hi).trans hon)).symm⟩
  obtain ⟨hclassic, hlower, hupper⟩ := hp
  obtain ⟨hdlc, hvariant⟩ := hsame (by omega)
  exact ⟨hvariant ▸ hclassic, hdlc ▸ hlower, hupper⟩

/-- A Frame's data fits its data area (30_encoding.md R93). -/
theorem packetShape_len_le_area {s : State} (h : PacketAccepted s) : (packetShape s).len ≤ packetArea s := by
  obtain ⟨-, -, hdlc, -⟩ := h
  unfold packetShape packetArea
  dsimp only
  cases hfd : packetFd s with
  | true => exact Nat.le_refl _
  | false =>
    rw [hfd] at hdlc
    exact hdlc

/-- Byte `i` is one that `PacketsAgree` speaks of whole: within the packet, neither flags nor reserved, and no pad. -/
def Regarded (s : State) (i : Nat) : Prop :=
  i < s.regs.rxwLen.toNat ∧ i ≠ 10 ∧ i ≠ 11 ∧ ¬(packetFd s = false ∧ 12 + packetDlc s ≤ i ∧ i < 20)

theorem byteAt_rxw_of_agree {s s' : State} {i : Nat} (h : PacketsAgree s s') (hacc : PacketAccepted s)
    (hi : Regarded s i) : byteAt (readBuffer .rxw s) i = byteAt (readBuffer .rxw s') i := by
  obtain ⟨-, hmax, -⟩ := hacc
  obtain ⟨-, -, hbytes, -⟩ := h
  obtain ⟨hi, h10, h11, hpad⟩ := hi
  rw [byteAt_rxw s (by omega), byteAt_rxw s' (by omega), hbytes i hi h10 h11 hpad]

theorem regarded_header {s : State} {i : Nat} (hacc : PacketAccepted s) (hi : i < 10) : Regarded s i := by
  obtain ⟨hmin, -⟩ := hacc
  exact ⟨by omega, by omega, by omega, by omega⟩

theorem regarded_data {s : State} {i : Nat} (hacc : PacketAccepted s) (hi : i < (packetShape s).len) :
    Regarded s (12 + i) := by
  have hfits := packetShape_len_le_area hacc
  obtain ⟨-, -, -, htotal⟩ := hacc
  refine ⟨by omega, by omega, by omega, fun ⟨hclassic, hpad, _⟩ => ?_⟩
  have hlen : (packetShape s).len = packetDlc s := if_neg (Bool.eq_false_iff.1 hclassic)
  omega

theorem regarded_timestamp {s : State} {k : Nat} (hacc : PacketAccepted s) (hon : s.regs.cfgHwTs = true)
    (hk : k < 4) : Regarded s (12 + packetArea s + k) := by
  obtain ⟨-, -, -, htotal⟩ := hacc
  rw [if_pos hon] at htotal
  have hnotPad : ¬(packetFd s = false ∧ 12 + packetDlc s ≤ 12 + packetArea s + k ∧ 12 + packetArea s + k < 20) := by
    rintro ⟨hclassic, -, hupper⟩
    have harea : packetArea s = 8 := if_neg (Bool.eq_false_iff.1 hclassic)
    omega
  exact ⟨by omega, by omega, by omega, hnotPad⟩

/-- The Frame of an accepted packet is made of bytes that FDEC does not ignore. -/
theorem packetFrame_eq_of_agree {s s' : State} (h : PacketsAgree s s') (hacc : PacketAccepted s) :
    packetFrame s = packetFrame s' := by
  have hbyte {i : Nat} (hi : Regarded s i) := byteAt_rxw_of_agree h hacc hi
  have hheader {i : Nat} (hi : i < 10) := hbyte (regarded_header hacc hi)
  have hecho : le32At (readBuffer .rxw s) 0 = le32At (readBuffer .rxw s') 0 :=
    le32At_congr fun k hk => hheader (by omega)
  have hcan : le32At (readBuffer .rxw s) 4 = le32At (readBuffer .rxw s') 4 :=
    le32At_congr fun k hk => hheader (by omega)
  have hdata (i : Nat) : (if i < (packetShape s).len then byteAt (readBuffer .rxw s) (12 + i) else 0#8) =
      if i < (packetShape s).len then byteAt (readBuffer .rxw s') (12 + i) else 0#8 :=
    ite_congr rfl (fun hi => hbyte (regarded_data hacc hi)) fun _ => rfl
  have htimestamp : (if s.regs.cfgHwTs then le32At (readBuffer .rxw s) (12 + packetArea s) else 0#32) =
      if s.regs.cfgHwTs then le32At (readBuffer .rxw s') (12 + packetArea s) else 0#32 :=
    ite_congr rfl (fun hon => le32At_congr fun k hk => hbyte (regarded_timestamp hacc hon hk)) fun _ => rfl
  have harea : (packetShape s).area = packetArea s := rfl
  obtain ⟨-, hshape⟩ := packetShape_eq_of_agree h hacc.1
  simp only [packetFrame, ← hshape, ← h.1, frameOfWire, Config.hdrBytes, harea, hecho, hcan, hheader (i := 9),
    hdata, htimestamp, Nat.reduceLT]

/-- Settles O33: what FDEC writes is the packet's Frame, which the two packets share. -/
theorem fdecIgnoresReservedAndPadBytes : Obligations.FdecIgnoresReservedAndPadBytes := by
  intro s s' t t' hwf hwf' hagree h h'
  by_cases hacc : PacketAccepted s
  · rw [exec_fdec_of_accepted hacc] at h
    rw [exec_fdec_of_accepted (packetAccepted_of_agree hagree hacc), ← packetFrame_eq_of_agree hagree hacc,
      ← hagree.1] at h'
    obtain rfl := Host.Outcome.next.inj h
    obtain rfl := Host.Outcome.next.inj h'
    rw [writeRxFrame_regs, writeRxFrame_regs]
    refine ⟨rfl, fun _ => ⟨rfl, rfl, rfl, rfl, rfl, rfl, fun i hi => ?_⟩⟩
    rw [read_writeRxFrame_rxData hwf _ _ hi, read_writeRxFrame_rxData hwf' _ _ hi]
  · rw [exec_fdec_of_not_accepted hacc] at h
    rw [exec_fdec_of_not_accepted fun hacc' => hacc (packetAccepted_of_agree (packetsAgree_symm hagree) hacc')] at h'
    cases h
    cases h'
    exact ⟨rfl, fun hok => by cases hok⟩

/-! ### Each unit's command twice -/

theorem State.eq_of_fields {s t : State} (hregs : s.regs = t.regs) (hmem : s.mem = t.mem)
    (hpending : s.pending = t.pending) (hreturned : s.returned = t.returned) : s = t := by
  cases s
  cases t
  cases hregs
  cases hmem
  cases hpending
  cases hreturned
  rfl

/-- In a canonical memory a run of bytes written again changes nothing. -/
theorem Memory.writeBytes_writeBytes_self {m : Memory} (a : Nat) (bs : List Byte) (h : m.wf = true) :
    (m.writeBytes a bs).writeBytes a bs = m.writeBytes a bs := by
  have hwf := Memory.wf_writeBytes a bs h
  refine Memory.ext_read (Memory.wf_writeBytes a bs hwf) hwf fun n => ?_
  by_cases hin : a ≤ n ∧ n < a + bs.length
  · obtain ⟨i, rfl⟩ := Nat.exists_eq_add_of_le hin.1
    rw [Memory.read_writeBytes_inside a bs i hwf (by omega), Memory.read_writeBytes_inside a bs i h (by omega)]
  · exact Memory.read_writeBytes_outside _ bs (by omega)

theorem writeWireFrame_writeWireFrame {s : State} (w : List Byte) (h : s.mem.wf = true) :
    writeWireFrame w (writeWireFrame w s) = writeWireFrame w s :=
  State.eq_of_fields (by simp only [writeWireFrame_regs])
    (by simp only [writeWireFrame_mem, Memory.writeBytes_writeBytes_self _ _ h]) (by simp only [writeWireFrame_pending])
    (by simp only [writeWireFrame_returned])

theorem writeRxFrame_writeRxFrame {s : State} (tsOn : Bool) (f : Frame) (h : s.mem.wf = true) :
    writeRxFrame tsOn f (writeRxFrame tsOn f s) = writeRxFrame tsOn f s :=
  State.eq_of_fields (by simp only [writeRxFrame_regs])
    (by simp only [writeRxFrame_mem, Memory.writeBytes_writeBytes_self _ _ h]) (by simp only [writeRxFrame_pending])
    (by simp only [writeRxFrame_returned])

/-- TCALC leaves its operands alone. -/
theorem exec_tcalc_twice {s t : State} (h : exec .tcalc s = .next t) : exec .tcalc t = .next t := by
  obtain ⟨b, hb, rfl⟩ | ⟨hnone, rfl⟩ := execTcalc_cases h
  · exact exec_tcalc_of_computeTiming (s := writeBitTiming b s) hb
  · exact exec_tcalc_of_computeTiming_none (s := raise .unsupportedBitrate .unitT s) hnone

/-- FENC leaves the TX frame alone. -/
theorem txAgree_writeWireFrame {s : State} (w : List Byte) (hacc : FrameAccepted s) :
    TxAgree s (writeWireFrame w s) := by
  have hlen := frameAccepted_len_le hacc
  constructor
  case data => exact fun i hi => (read_writeWireFrame_outside s w (by omega)).symm
  all_goals simp only [writeWireFrame_regs, implies_true]

theorem exec_fenc_twice {s t : State} (hwf : s.mem.wf = true) (h : exec .fenc s = .next t) :
    exec .fenc t = .next t := by
  by_cases hacc : FrameAccepted s
  · have hagree := txAgree_writeWireFrame (txWire s) hacc
    rw [exec_fenc_of_accepted hacc] at h
    obtain rfl := Host.Outcome.next.inj h
    rw [exec_fenc_of_accepted (hagree.accepted_iff.1 hacc), ← hagree.txWire_eq hacc,
      writeWireFrame_writeWireFrame _ hwf]
  · rw [exec_fenc_of_not_accepted hacc] at h
    obtain rfl := Host.Outcome.next.inj h
    exact exec_fenc_of_not_accepted (s := raise .invalidFrame .unitE s) hacc

/-- FDEC leaves the packet alone. -/
theorem packetsAgree_writeRxFrame {s : State} (tsOn : Bool) (f : Frame) (hacc : PacketAccepted s) :
    PacketsAgree s (writeRxFrame tsOn f s) := by
  obtain ⟨-, hmax, -⟩ := hacc
  have hbyte (i : Nat) (hi : i < 80) : packetByte s i = packetByte (writeRxFrame tsOn f s) i :=
    (read_writeRxFrame_outside tsOn f s (.inl (by simp only [Buffer.base]; omega))).symm
  unfold PacketsAgree
  rw [writeRxFrame_regs, packetFd, packetFd, ← hbyte 10 (by decide)]
  exact ⟨rfl, rfl, fun i hi _ _ _ => hbyte i (by omega), fun _ => rfl, fun _ _ => rfl⟩

theorem exec_fdec_twice {s t : State} (hwf : s.mem.wf = true) (h : exec .fdec s = .next t) :
    exec .fdec t = .next t := by
  by_cases hacc : PacketAccepted s
  · have hagree := packetsAgree_writeRxFrame s.regs.cfgHwTs (packetFrame s) hacc
    rw [exec_fdec_of_accepted hacc] at h
    obtain rfl := Host.Outcome.next.inj h
    rw [exec_fdec_of_accepted (packetAccepted_of_agree hagree hacc), ← packetFrame_eq_of_agree hagree hacc,
      ← hagree.1, writeRxFrame_writeRxFrame _ _ hwf]
  · rw [exec_fdec_of_not_accepted hacc] at h
    obtain rfl := Host.Outcome.next.inj h
    exact exec_fdec_of_not_accepted (s := raise .invalidFrame .unitD s) hacc

/-- Settles O34: no unit writes what it reads. -/
theorem unitCommandsAreIdempotent : Obligations.UnitCommandsAreIdempotent := by
  intro i s t hi hwf h
  simp only [List.mem_cons, List.not_mem_nil, or_false] at hi
  obtain rfl | rfl | rfl := hi
  · exact exec_tcalc_twice h
  · exact exec_fenc_twice hwf h
  · exact exec_fdec_twice hwf h

end Sys2Proof.Machine
end

section
/-! PROOFS. The host's lines through the port: what the words of TSET, LIMITS, TXBYTES and COPYW do, and FENC, COPYW and
FDEC in a row (30_encoding.md R97, R98; 42_frame_decode.md R161, R162). -/

namespace Sys2Proof.Machine

open Sys2Proof.Safety

/-! ### Words on the port -/

theorem exec_fdec_of_decodeFrame {s : State} {f : Frame}
    (h : decodeFrame s.regs.cfgHwTs s.regs.rxwLen.toNat (readBuffer .rxw s) = some f) :
    exec .fdec s = .next (writeRxFrame s.regs.cfgHwTs f s) := by
  simp only [exec, execFdec, h]

theorem exec_fdec_of_decodeFrame_none {s : State}
    (h : decodeFrame s.regs.cfgHwTs s.regs.rxwLen.toNat (readBuffer .rxw s) = none) :
    exec .fdec s = .next (raise .invalidFrame .unitD s) := by
  simp only [exec, execFdec, h]

theorem exec_fenc_of_encodeFrame {s : State} {w : List Byte}
    (h : encodeFrame s.regs.cfgHwTs (txFrame s) = some w) : exec .fenc s = .next (writeWireFrame w s) := by
  simp only [exec, execFenc, h]

theorem exec_fenc_of_encodeFrame_none {s : State} (h : encodeFrame s.regs.cfgHwTs (txFrame s) = none) :
    exec .fenc s = .next (raise .invalidFrame .unitE s) := by
  simp only [exec, execFenc, h]

theorem writeWireFrame_with_pending (w : List Byte) (s : State) (pending : List PortEvent) :
    writeWireFrame w { s with pending := pending } = { writeWireFrame w s with pending := pending } := by
  simp only [writeWireFrame, writeBuffer]

theorem writeRxFrame_with_pending (tsOn : Bool) (f : Frame) (s : State) (pending : List PortEvent) :
    writeRxFrame tsOn f { s with pending := pending } = { writeRxFrame tsOn f s with pending := pending } := by
  simp only [writeRxFrame, writeBuffer]

/-- What waits on the port has no part in what an instruction does. -/
theorem exec_with_pending {i : Instr} {s t : State} (pending : List PortEvent) (h : exec i s = .next t) :
    exec i { s with pending := pending } = .next { t with pending := pending } := by
  cases i with
  | nop | clr | illegal =>
    cases h
    rfl
  | tcalc =>
    obtain ⟨b, hb, rfl⟩ | ⟨hnone, rfl⟩ := execTcalc_cases h
    · exact exec_tcalc_of_computeTiming (s := { s with pending := pending }) hb
    · exact exec_tcalc_of_computeTiming_none (s := { s with pending := pending }) hnone
  | fenc =>
    obtain ⟨w, hw, rfl⟩ | ⟨hnone, rfl⟩ := execFenc_cases h
    · exact (exec_fenc_of_encodeFrame (s := { s with pending := pending }) hw).trans
        (congrArg _ (writeWireFrame_with_pending w s pending))
    · exact exec_fenc_of_encodeFrame_none (s := { s with pending := pending }) hnone
  | fdec =>
    obtain ⟨f, hf, rfl⟩ | ⟨hnone, rfl⟩ := execFdec_cases h
    · exact (exec_fdec_of_decodeFrame (s := { s with pending := pending }) hf).trans
        (congrArg _ (writeRxFrame_with_pending _ f s pending))
    · exact exec_fdec_of_decodeFrame_none (s := { s with pending := pending }) hnone
  | wr a v =>
    obtain ⟨r, hr, hrw, rfl⟩ | ⟨hnot, rfl⟩ := execWr_cases h
    · rw [exec_wr_of_rw v _ hr hrw]
      cases r with
      | element b i => cases b <;> rfl
      | _ => rfl
    · exact exec_wr_of_not_rw v _ hnot
  | rd a v =>
    obtain ⟨r, hr, rfl⟩ | ⟨hnone, rfl⟩ := execRd_cases h
    · rw [exec_rd_of_assigned v _ hr]
      cases r <;> rfl
    · exact exec_rd_of_unassigned v _ hnone

/-- PE performs the words `ws` from `s` to `t`, whatever waits behind them. -/
def Performs (ws : List TxnWord) (s t : State) : Prop :=
  ∀ (n : Nat) (rest : List TxnWord),
    Sys2Proof.core.run (ws.length + n) { s with pending := onPort (ws ++ rest) } =
      Sys2Proof.core.run n { t with pending := onPort rest }

theorem Performs.nil (s : State) : Performs [] s s := by
  intro n rest
  rw [List.length_nil, Nat.zero_add, List.nil_append]

theorem Performs.cons {w : TxnWord} {ws : List TxnWord} {s t u : State} (h : exec (decodeWord w) s = .next t)
    (h' : Performs ws t u) : Performs (w :: ws) s u := by
  intro n rest
  have hstep : step { s with pending := onPort (w :: (ws ++ rest)) } =
      .next { t with pending := onPort (ws ++ rest) } :=
    (step_transaction rfl).trans (exec_with_pending (s := s) (onPort (ws ++ rest)) h)
  rw [List.length_cons, Nat.succ_add, List.cons_append, run_of_step hstep, h' n rest]

theorem Performs.append {ws ws' : List TxnWord} {s t u : State} (h : Performs ws s t) (h' : Performs ws' t u) :
    Performs (ws ++ ws') s u := by
  intro n rest
  rw [List.length_append, Nat.add_assoc, List.append_assoc, h, h']

theorem Performs.single {w : TxnWord} {s t : State} (h : exec (decodeWord w) s = .next t) : Performs [w] s t :=
  .cons h (.nil t)

theorem Performs.run {ws : List TxnWord} {s t : State} (h : Performs ws s t) :
    Sys2Proof.core.run ws.length { s with pending := onPort ws } = .next { t with pending := [] } := by
  have hrun := h 0 []
  rwa [Nat.add_zero, List.append_nil] at hrun

/-! ### The assembler's words -/

theorem exec_asmWr {r : Reg} (v : Word) (s : State) (hr : r.Assigned) (hrw : r.access = .rw) :
    exec (decodeWord (asmWr r v)) s = .next (writeReg r v s) := by
  have hregAt := regAt_number_of_assigned hr
  have hne : BitVec.ofNat 12 r.number ≠ 0#12 := by
    intro hzero
    rw [hzero] at hregAt
    obtain rfl := Option.some.inj hregAt
    cases hrw
  rw [asmWr, encode, decodeWord_write v hne, exec_wr_of_rw v s hregAt hrw]

theorem exec_asmRd {r : Reg} (s : State) (hr : r.Assigned) :
    exec (decodeWord (asmRd r)) s = .next (returnValue (readReg r s) s) := by
  rw [asmRd, encode, decodeWord_read, exec_rd_of_assigned _ s (regAt_number_of_assigned hr)]

theorem exec_asmCmd (v : Word) (s : State) : exec (decodeWord (asmCmd v)) s = exec (decodeCommand v) s := by
  rw [asmCmd, decodeWord_commandWord]

/-- A list of writes of RW registers performs each of them. -/
theorem performs_asmWr (values : List (Reg × Word)) (s : State)
    (h : ∀ p ∈ values, p.1.Assigned ∧ p.1.access = .rw) :
    Performs (values.map fun p => asmWr p.1 p.2) s (values.foldl (fun s p => writeReg p.1 p.2 s) s) := by
  induction values generalizing s with
  | nil => exact .nil s
  | cons p values ih =>
    obtain ⟨⟨hr, hrw⟩, hrest⟩ := List.forall_mem_cons.1 h
    exact .cons (exec_asmWr p.2 s hr hrw) (ih _ hrest)

/-- Settles O15: the lines are eight writes of RW registers. -/
theorem timingLinesLoadTheOperands : Obligations.TimingLinesLoadTheOperands := by
  intro s b f sp brpMax segMin segMax sjwMax policy
  have hline := (performs_asmWr [(.tBitrate, b), (.tClockHz, f), (.tSamplePoint, sp), (.lBrpMax, brpMax),
    (.lSegMin, segMin), (.lSegMax, segMax), (.lSjwMax, sjwMax), (.lSjwPolicy, policy)] s
    (by simp only [List.forall_mem_cons, List.not_mem_nil, false_imp_iff, implies_true, Reg.Assigned, Reg.access,
      and_self])).run
  simp only [List.map_cons, List.map_nil, List.foldl_cons, List.foldl_nil, List.length_cons, List.length_nil,
    writeReg] at hline
  exact hline

/-- A host write of an element stores its byte. -/
theorem writeReg_element {b : Buffer} (i : Nat) (v : Byte) (s : State) (h : b.access = .rw) :
    writeReg (.element b i) (byteWord v) s = { s with mem := s.mem.write (b.base + i) v } := by
  cases b with
  | txData | rxw => rw [writeReg, lowByte_byteWord]
  | txw | rxData => cases h

/-- The writes of elements from `i` on store their bytes there. -/
theorem performs_asmFill {b : Buffer} {i : Nat} {bs : List Byte} (s : State) (h : b.access = .rw)
    (hi : i + bs.length ≤ b.size) :
    Performs (asmFill b i bs) s { s with mem := s.mem.writeBytes (b.base + i) bs } := by
  induction bs generalizing i s with
  | nil => exact .nil s
  | cons v vs ih =>
    rw [List.length_cons] at hi
    have hwrite := exec_asmWr (r := .element b i) (byteWord v) s (show i < b.size by omega) h
    rw [writeReg_element i v s h] at hwrite
    exact .cons hwrite (ih { s with mem := s.mem.write (b.base + i) v } (by omega))

theorem length_asmFill (b : Buffer) (i : Nat) (bs : List Byte) : (asmFill b i bs).length = bs.length := by
  induction bs generalizing i with
  | nil => rfl
  | cons v vs ih => rw [asmFill, List.length_cons, ih, List.length_cons]

theorem lowByte_ofNat (n : Nat) : lowByte (BitVec.ofNat 32 n) = BitVec.ofNat 8 n := by
  apply BitVec.eq_of_toNat_eq
  simp only [lowByte, BitVec.extractLsb'_toNat, BitVec.toNat_ofNat, Nat.shiftRight_zero]
  omega

/-- Settles O16: the line is a run of writes to TX_DATA, then one to TX_LEN. -/
theorem txbytesLoadsTheData : Obligations.TxbytesLoadsTheData := by
  intro s bs hwf hlen
  have hfill := performs_asmFill (i := 0) s (b := .txData) rfl (by rwa [Nat.zero_add])
  have hline := (hfill.append (.single (exec_asmWr (r := .txLen) (BitVec.ofNat 32 bs.length) _ trivial rfl))).run
  rw [List.length_append, length_asmFill] at hline
  refine ⟨_, hline, fun i hi => Memory.read_writeBytes_inside _ _ _ hwf hi,
    fun a ha => Memory.read_writeBytes_outside _ _ ha, ?_, rfl, rfl⟩
  rw [← lowByte_ofNat]
  rfl

/-! ### COPYW -/

/-- The state COPYW leads to: RXW begins with the packet in TXW, RXW_LEN is its length, and both were returned. -/
def copied (s : State) : State :=
  { s with
    regs := { s.regs with rxwLen := s.regs.txwLen }
    mem := s.mem.writeBytes 0x200 (s.mem.readBytes 0x180 s.regs.txwLen.toNat)
    returned := s.returned ++ byteWord s.regs.txwLen ::
      (s.mem.readBytes 0x180 s.regs.txwLen.toNat).map byteWord }

/-- The pairs of COPYW from element `i` on, where TXW holds the values they carry. -/
theorem performs_asmCopyPairs {i : Nat} {vs : List Byte} (s : State) (hi : i + vs.length ≤ 80)
    (hvs : ∀ k < vs.length, s.mem.read (0x180 + (i + k)) = byteAt vs k) :
    Performs (asmCopyPairs i vs) s
      { s with mem := s.mem.writeBytes (0x200 + i) vs, returned := s.returned ++ vs.map byteWord } := by
  induction vs generalizing i s with
  | nil =>
    rw [List.map_nil, List.append_nil]
    exact .nil s
  | cons v vs ih =>
    rw [List.length_cons] at hi hvs
    have hi80 : i < 80 := by omega
    have hfirst : s.mem.read (0x180 + i) = v := hvs 0 (Nat.succ_pos _)
    have hread : exec (decodeWord (asmRd (.element .txw i))) s = .next (returnValue (byteWord v) s) :=
      hfirst ▸ exec_asmRd s hi80
    have hwrite := exec_asmWr (r := .element .rxw i) (byteWord v) (returnValue (byteWord v) s) hi80 rfl
    rw [writeReg_element i v _ rfl] at hwrite
    have hrest := ih (i := i + 1) { returnValue (byteWord v) s with mem := s.mem.write (0x200 + i) v } (by omega)
      fun k hk => by
        have hbyte : s.mem.read (0x180 + (i + (k + 1))) = byteAt vs k := hvs (k + 1) (by omega)
        rw [Memory.read_write_other _ _ (by omega), Nat.add_assoc, Nat.add_comm 1 k]
        exact hbyte
    have hreturned : (s.returned ++ [byteWord v]) ++ vs.map byteWord = s.returned ++ (v :: vs).map byteWord := by
      rw [List.append_assoc, List.map_cons, List.singleton_append]
    rw [← hreturned]
    exact .cons hread (.cons hwrite hrest)

/-- COPYW copies the packet in TXW to RXW (30_encoding.md R98). -/
theorem performs_asmCopyw (s : State) (h : s.regs.txwLen.toNat ≤ 80) : Performs (asmCopyw s) s (copied s) := by
  have hlen := exec_asmRd (r := .txwLen) s trivial
  have hpairs := performs_asmCopyPairs (i := 0) (vs := s.mem.readBytes 0x180 s.regs.txwLen.toNat)
    (returnValue (byteWord s.regs.txwLen) s) (by rwa [Memory.length_readBytes, Nat.zero_add]) fun k hk => by
      rw [Memory.length_readBytes] at hk
      rw [Memory.byteAt_readBytes _ _ _ hk, Nat.zero_add]
      rfl
  have hcopied := (Performs.cons hlen hpairs).append
    (.single (exec_asmWr (r := .rxwLen) (byteWord s.regs.txwLen) _ trivial rfl))
  simp only [writeReg, lowByte_byteWord, returnValue, List.append_assoc, List.singleton_append, Nat.add_zero] at hcopied
  exact hcopied

/-! ### FENC, COPYW and FDEC in a row -/

/-- The state FENC leads to. -/
def encoded (s : State) : State := writeWireFrame (txWire s) s

/-- The Frame FDEC gives back for the TX frame. -/
def backFrame (s : State) : Frame :=
  carriedFrame s.regs.cfgHwTs (txFrame s) (carriedLen (txFrame s)) (carriedFlags (txFrame s))

theorem encoded_txwLen {s : State} (hwf : s.mem.wf = true) (hacc : FrameAccepted s) :
    (encoded s).regs.txwLen.toNat = (txWire s).length ∧ (txWire s).length ≤ 80 := by
  obtain ⟨-, -, -, -, -, -, -, -, -, hlen⟩ := holdsWireFrame_writeWireFrame hwf hacc
  rw [length_txWire]
  exact ⟨hlen, wireLength_txArea_le hacc⟩

/-- After FENC and COPYW, RXW begins with the wire frame of the TX registers. -/
theorem byteAt_rxw_copied_encoded {s : State} (hwf : s.mem.wf = true) (hacc : FrameAccepted s) {i : Nat}
    (hi : i < (txWire s).length) : byteAt (readBuffer .rxw (copied (encoded s))) i = byteAt (txWire s) i := by
  obtain ⟨hlen, hmax⟩ := encoded_txwLen hwf hacc
  have hwf' : (encoded s).mem.wf = true := by
    rw [encoded, writeWireFrame_mem]
    exact Memory.wf_writeBytes _ _ hwf
  rw [byteAt_rxw _ (by omega), ← read_writeWireFrame_txw hwf (txWire s) (by omega)]
  have hbyte := Memory.read_writeBytes_inside 0x200
    ((encoded s).mem.readBytes 0x180 (encoded s).regs.txwLen.toNat) i hwf' (by rwa [Memory.length_readBytes, hlen])
  exact hbyte.trans (Memory.byteAt_readBytes _ _ _ (by rwa [hlen]))

/-- After FENC and COPYW, FDEC gives the TX frame back as the codec carries it. -/
theorem exec_fdec_copied_encoded {s : State} (hwf : s.mem.wf = true) (hacc : FrameAccepted s) :
    exec .fdec (copied (encoded s)) = .next (writeRxFrame s.regs.cfgHwTs (backFrame s) (copied (encoded s))) := by
  obtain ⟨w, hw, -, hdecode⟩ := decodeFrame_encodeFrame s.regs.cfgHwTs (f := txFrame s) hacc
  rw [encodeFrame_txFrame, if_pos hacc] at hw
  obtain rfl := Option.some.inj hw
  have hhwTs : (copied (encoded s)).regs.cfgHwTs = s.regs.cfgHwTs := by
    rw [copied, encoded, writeWireFrame_regs]
  have hlen : (copied (encoded s)).regs.rxwLen.toNat = (txWire s).length := (encoded_txwLen hwf hacc).1
  have hframe : decodeFrame s.regs.cfgHwTs (txWire s).length (readBuffer .rxw (copied (encoded s))) =
      some (backFrame s) := hdecode _ fun i => byteAt_rxw_copied_encoded hwf hacc
  rw [← hhwTs]
  refine exec_fdec_of_decodeFrame ?_
  rw [hhwTs, hlen, hframe]

/-- The state FENC, COPYW and FDEC lead to, all performed through the port. -/
def loopedBack (s : State) : State :=
  { writeRxFrame s.regs.cfgHwTs (backFrame s) (copied (encoded s)) with pending := [] }

theorem loopBackWords_with_pending (s : State) (pending : List PortEvent) :
    loopBackWords { s with pending := pending } = loopBackWords s := rfl

/-- The two runs of 42_frame_decode.md R161: FENC alone, and FENC, COPYW and FDEC. -/
theorem loopBack_runs {s : State} (hwf : s.mem.wf = true) (hacc : FrameAccepted s) :
    Sys2Proof.core.run 1 { s with pending := onPort [asmCmd 2#32] } = .next { encoded s with pending := [] } ∧
      Sys2Proof.core.run (loopBackWords { encoded s with pending := [] }).length
        { s with pending := onPort (loopBackWords { encoded s with pending := [] }) } = .next (loopedBack s) := by
  have hfenc : exec (decodeWord (asmCmd 2#32)) s = .next (encoded s) :=
    (exec_asmCmd _ s).trans (exec_fenc_of_accepted hacc)
  have hfdec : exec (decodeWord (asmCmd 3#32)) (copied (encoded s)) =
      .next (writeRxFrame s.regs.cfgHwTs (backFrame s) (copied (encoded s))) :=
    (exec_asmCmd _ _).trans (exec_fdec_copied_encoded hwf hacc)
  obtain ⟨hlen, hmax⟩ := encoded_txwLen hwf hacc
  have hcopy := performs_asmCopyw (encoded s) (by rwa [hlen])
  rw [loopBackWords_with_pending]
  exact ⟨(Performs.single hfenc).run, (Performs.cons hfenc (hcopy.append (.single hfdec))).run⟩

theorem loopedBack_regs (s : State) :
    (loopedBack s).regs = { s.regs with
      txwLen := (encoded s).regs.txwLen
      rxwLen := (encoded s).regs.txwLen
      eStatus := .success
      rxEchoId := s.regs.txEchoId
      rxCanId := s.regs.txCanId
      rxChannel := s.regs.txChannel
      rxFlags := carriedFlags (txFrame s)
      rxLen := BitVec.ofNat 8 (carriedLen (txFrame s))
      rxTs := if s.regs.cfgHwTs then s.regs.txTs else 0#32
      dStatus := .success (isReceived s.regs.txEchoId) s.regs.cfgHwTs } := by
  simp only [loopedBack, writeRxFrame_regs, copied, encoded, writeWireFrame_regs, backFrame, carriedFrame, txFrame]

/-- RX_DATA holds the data bytes below TX_LEN, then 0. -/
theorem loopedBack_read {s : State} (hwf : s.mem.wf = true) {i : Nat} (hi : i < 64) :
    (loopedBack s).mem.read (0x280 + i) = if i < s.regs.txLen.toNat then s.mem.read (0x100 + i) else 0#8 := by
  have hwf' : (copied (encoded s)).mem.wf = true := by
    refine Memory.wf_writeBytes _ _ ?_
    rw [encoded, writeWireFrame_mem]
    exact Memory.wf_writeBytes _ _ hwf
  have hdata : byteAt (txFrame s).data i = s.mem.read (0x100 + i) := Memory.byteAt_readBytes _ _ _ hi
  have hlen : (txFrame s).len = s.regs.txLen := rfl
  rw [loopedBack, read_writeRxFrame_rxData hwf' _ _ hi, backFrame, byteAt_carriedFrame_data _ _ _ _ hi, hdata, hlen]

theorem loopedBack_returned (s : State) :
    (loopedBack s).returned = s.returned ++ byteWord (encoded s).regs.txwLen ::
      ((encoded s).mem.readBytes 0x180 (encoded s).regs.txwLen.toNat).map byteWord := by
  rw [loopedBack, writeRxFrame_returned, copied, encoded, writeWireFrame_returned]

/-- Settles O36: a canonical length comes back as it was. -/
theorem roundTripThroughThePort : Obligations.RoundTripThroughThePort := by
  intro s hwf hcanonical
  obtain ⟨hacc, hlen⟩ := carriedLen_of_canonical (f := txFrame s) hcanonical
  obtain ⟨hfenc, hloop⟩ := loopBack_runs hwf hacc
  have hrxLen : BitVec.ofNat 8 (carriedLen (txFrame s)) = s.regs.txLen := by
    rw [hlen, BitVec.ofNat_toNat, BitVec.setWidth_eq]
    rfl
  refine ⟨_, _, hfenc, hloop, ?_⟩
  have hflags : carriedFlags (txFrame s) = if s.regs.txFlags.fd then s.regs.txFlags else ⟨false, false, false⟩ := rfl
  rw [loopedBack_regs, hrxLen, hflags, loopedBack_returned]
  refine ⟨rfl, rfl, rfl, rfl, rfl, rfl, rfl, fun i hi => loopedBack_read hwf hi, rfl, rfl, rfl, rfl, ?returned⟩
  case returned => dsimp only

/-- Settles O37: the length comes back as the least canonical one that holds it. -/
theorem nonCanonicalLengthIsRoundedUp : Obligations.NonCanonicalLengthIsRoundedUp := by
  intro s hwf hfd _ hmax hnot
  have hacc : FrameAccepted s := by
    rw [FrameAccepted, if_pos hfd]
    omega
  obtain ⟨hfenc, hloop⟩ := loopBack_runs hwf hacc
  obtain ⟨hcode, hfits⟩ := len2dlc_spec (n := s.regs.txLen.toNat) (by omega)
  have hround := dlc2len_le hcode
  have hne : dlc2len (len2dlc s.regs.txLen.toNat) ≠ s.regs.txLen.toNat :=
    fun hlen => hnot ((dlc2len_len2dlc_eq_iff (by omega)).1 hlen)
  have hcarried : carriedLen (txFrame s) = dlc2len (len2dlc s.regs.txLen.toNat) := if_pos hfd
  have hrxLen : (BitVec.ofNat 8 (carriedLen (txFrame s))).toNat = dlc2len (len2dlc s.regs.txLen.toNat) := by
    rw [hcarried]
    exact Nat.mod_eq_of_lt (by omega)
  refine ⟨_, _, hfenc, hloop, ?_⟩
  rw [loopedBack_regs]
  dsimp only
  rw [hrxLen]
  refine ⟨rfl, rfl, by omega, fun i hi => ?_, fun i hi hgap => ?_⟩
  · rw [loopedBack_read hwf (by omega), if_pos hi]
  · rw [loopedBack_read hwf (by omega), if_neg (by omega)]

end Sys2Proof.Machine
end

section
/-! PROOFS. Threads with different register sets: an instruction of one set reads and writes that set, CFG and FAULT
alone, so two of different sets commute (20_memory.md R71). -/

namespace Sys2Proof.Machine

open Sys2Proof.Safety

/-! ### A state is what its registers read -/

theorem regs_eq_of_readReg {s t : State} (h : ∀ r : Reg, r.Assigned → readReg r s = readReg r t) :
    s.regs = t.regs := by
  obtain ⟨⟨⟩, _, _, _⟩ := s
  obtain ⟨⟨⟩, _, _, _⟩ := t
  rw [Regs.mk.injEq]
  exact ⟨bitWord_injective (h .cfg trivial), UnitStatus.word_injective (h .tStatus trivial),
    UnitStatus.word_injective (h .eStatus trivial), DecodeStatus.word_injective (h .dStatus trivial),
    FaultStatus.word_injective (h .fault trivial), h .tBitrate trivial, h .tClockHz trivial,
    h .tSamplePoint trivial, h .lBrpMax trivial, h .lSegMin trivial, h .lSegMax trivial, h .lSjwMax trivial,
    bitWord_injective (h .lSjwPolicy trivial), h .btPropSeg trivial, h .btPhaseSeg1 trivial,
    h .btPhaseSeg2 trivial, h .btSjw trivial, h .btBrp trivial, h .btTq trivial, h .txEchoId trivial,
    h .txCanId trivial, byteWord_injective (h .txChannel trivial),
    FrameFlags.byte_injective (byteWord_injective (h .txFlags trivial)), byteWord_injective (h .txLen trivial),
    h .txTs trivial, byteWord_injective (h .txwLen trivial), h .rxEchoId trivial, h .rxCanId trivial,
    byteWord_injective (h .rxChannel trivial), FrameFlags.byte_injective (byteWord_injective (h .rxFlags trivial)),
    byteWord_injective (h .rxLen trivial), h .rxTs trivial, byteWord_injective (h .rxwLen trivial)⟩

/-- Canonical memories that read alike as registers, and alike outside the buffers, are equal. -/
theorem mem_eq_of_readReg {s t : State} (hs : s.mem.wf = true) (ht : t.mem.wf = true)
    (h : ∀ r : Reg, r.Assigned → readReg r s = readReg r t)
    (houtside : ∀ n, (∀ b ∈ Buffer.all, ¬(b.base ≤ n ∧ n < b.base + b.size)) → s.mem.read n = t.mem.read n) :
    s.mem = t.mem := by
  refine Memory.ext_read hs ht fun n => ?_
  by_cases hn : ∃ b ∈ Buffer.all, b.base ≤ n ∧ n < b.base + b.size
  · obtain ⟨b, -, hlower, hupper⟩ := hn
    obtain ⟨i, rfl⟩ := Nat.exists_eq_add_of_le hlower
    exact byteWord_injective (h (.element b i) (Nat.lt_of_add_lt_add_left hupper))
  · exact houtside n fun b hb hin => hn ⟨b, hb, hin⟩

theorem wf_exec {i : Instr} {s t : State} (h : exec i s = .next t) (hclr : i ≠ .clr) (hs : s.mem.wf = true) :
    t.mem.wf = true := by
  obtain ⟨b, k, bs, -, hmem⟩ := exec_mem h hclr
  rw [hmem]
  exact Memory.wf_writeBytes _ bs hs

theorem exec_read_outside {i : Instr} {s t : State} {n : Nat} (h : exec i s = .next t) (hclr : i ≠ .clr)
    (hn : ∀ b ∈ Buffer.all, ¬(b.base ≤ n ∧ n < b.base + b.size)) : t.mem.read n = s.mem.read n := by
  obtain ⟨b, k, bs, hk, hmem⟩ := exec_mem h hclr
  rw [hmem]
  refine Memory.read_writeBytes_outside _ bs ?_
  have := hn b (mem_buffer_all b)
  omega

/-! ### What an instruction of a thread writes -/

theorem clr_of_instrThread {i : Instr} {a : ThreadSet} (h : instrThread i = some a) : i ≠ .clr := by
  rintro rfl
  cases h

/-- The thread that runs a unit. -/
def Raiser.thread : Raiser → Option ThreadSet
  | .unitT => some .timing
  | .unitE => some .transmit
  | .unitD => some .receive
  | .hostPort => none

/-- The results of a unit belong to the thread that runs it. -/
theorem regThread_of_writer {r : Reg} {u : Raiser} (h : r.writer = u) (hu : u ≠ .hostPort) :
    regThread r = u.thread := by
  subst h
  cases r with
  | element b i => cases b <;> first | rfl | exact absurd rfl hu
  | _ => first | rfl | exact absurd rfl hu

/-- An instruction of a thread writes its thread's registers, or FAULT. -/
theorem regThread_of_writes {i : Instr} {r : Reg} {a : ThreadSet} (hi : instrThread i = some a) (hw : writes i r)
    (hfault : r ≠ .fault) : regThread r = some a := by
  cases i with
  | nop | clr | illegal => cases hi
  | tcalc | fenc | fdec =>
    cases hi
    exact regThread_of_writer hw Raiser.noConfusion
  | wr n v =>
    cases hk : keepsContract (.wr n v) with
    | true =>
      rw [writes_wr_of_keepsContract hk] at hw
      rwa [instrThread, hw] at hi
    | false => exact absurd ((writes_wr_of_violation hk).1 hw) hfault
  | rd n v => exact absurd hw.2 hfault

/-- An instruction of a thread leaves every register of no or another thread alone, but for FAULT. -/
theorem readReg_exec_of_thread {i : Instr} {r : Reg} {a : ThreadSet} {s t : State} (hi : instrThread i = some a)
    (h : exec i s = .next t) (hr : r.Assigned) (hfault : r ≠ .fault) (hthread : regThread r ≠ some a) :
    readReg r t = readReg r s :=
  readReg_exec h hr fun hw => hthread (regThread_of_writes hi hw hfault)

/-- What an instruction of a thread does to FAULT: a refused access is recorded. -/
def recordAccess (i : Instr) (f : FaultStatus) : FaultStatus :=
  if keepsContract i then f else ⟨f.illcmd, true, 4#4⟩

theorem fault_exec_of_thread {i : Instr} {a : ThreadSet} {s t : State} (hi : instrThread i = some a)
    (h : exec i s = .next t) : t.regs.fault = recordAccess i s.regs.fault := by
  unfold recordAccess
  split
  next hk => exact fault_of_keepsContract h (clr_of_instrThread hi) hk
  next hk =>
    refine fault_of_refusedAccess h (Bool.eq_false_iff.2 hk) ?_
    rintro v rfl
    cases hi

theorem recordAccess_comm (i j : Instr) (f : FaultStatus) :
    recordAccess i (recordAccess j f) = recordAccess j (recordAccess i f) := by
  unfold recordAccess
  split <;> split <;> rfl

/-! ### What an instruction of a thread reads -/

/-- Two states agree on a thread's registers and on CFG. -/
def AgreeOn (a : ThreadSet) (s s' : State) : Prop :=
  s.regs.cfgHwTs = s'.regs.cfgHwTs ∧
    ∀ r : Reg, r.Assigned → regThread r = some a → readReg r s = readReg r s'

/-- An instruction of another thread leaves a thread's registers, and CFG, alone. -/
theorem agreeOn_exec {j : Instr} {a b : ThreadSet} {s t : State} (hj : instrThread j = some b) (hne : a ≠ b)
    (h : exec j s = .next t) : AgreeOn a s t := by
  refine ⟨bitWord_injective (readReg_exec_of_thread (r := .cfg) hj h trivial Reg.noConfusion ?_).symm,
    fun r hr hthread => (readReg_exec_of_thread hj h hr ?_ ?_).symm⟩
  · rintro ⟨⟩
  · rintro rfl
    cases hthread
  · rw [hthread]
    exact fun he => hne (Option.some.inj he)

/-- A buffer is what its elements read. -/
theorem readBuffer_eq_of_readReg {b : Buffer} {s s' : State}
    (h : ∀ i < b.size, readReg (.element b i) s = readReg (.element b i) s') : readBuffer b s = readBuffer b s' :=
  List.map_congr_left fun i hi => byteWord_injective (h i (List.mem_range.1 hi))

theorem AgreeOn.timingOperands_eq {s s' : State} (h : AgreeOn .timing s s') : timingOperands s = timingOperands s' := by
  obtain ⟨-, hread⟩ := h
  have hbitrate : s.regs.tBitrate = s'.regs.tBitrate := hread .tBitrate trivial rfl
  have hclock : s.regs.tClockHz = s'.regs.tClockHz := hread .tClockHz trivial rfl
  have hsp : s.regs.tSamplePoint = s'.regs.tSamplePoint := hread .tSamplePoint trivial rfl
  have hbrp : s.regs.lBrpMax = s'.regs.lBrpMax := hread .lBrpMax trivial rfl
  have hlo : s.regs.lSegMin = s'.regs.lSegMin := hread .lSegMin trivial rfl
  have hhi : s.regs.lSegMax = s'.regs.lSegMax := hread .lSegMax trivial rfl
  have hsjw : s.regs.lSjwMax = s'.regs.lSjwMax := hread .lSjwMax trivial rfl
  have hpolicy : s.regs.lSjwMaxLegal = s'.regs.lSjwMaxLegal := bitWord_injective (hread .lSjwPolicy trivial rfl)
  simp only [timingOperands, hbitrate, hclock, hsp, hbrp, hlo, hhi, hsjw, hpolicy]

theorem AgreeOn.txFrame_eq {s s' : State} (h : AgreeOn .transmit s s') : txFrame s = txFrame s' := by
  obtain ⟨-, hread⟩ := h
  have hecho : s.regs.txEchoId = s'.regs.txEchoId := hread .txEchoId trivial rfl
  have hcan : s.regs.txCanId = s'.regs.txCanId := hread .txCanId trivial rfl
  have hts : s.regs.txTs = s'.regs.txTs := hread .txTs trivial rfl
  have hchannel : s.regs.txChannel = s'.regs.txChannel := byteWord_injective (hread .txChannel trivial rfl)
  have hflags : s.regs.txFlags = s'.regs.txFlags :=
    FrameFlags.byte_injective (byteWord_injective (hread .txFlags trivial rfl))
  have hlen : s.regs.txLen = s'.regs.txLen := byteWord_injective (hread .txLen trivial rfl)
  have hdata : readBuffer .txData s = readBuffer .txData s' :=
    readBuffer_eq_of_readReg fun i hi => hread (.element .txData i) hi rfl
  simp only [txFrame, hecho, hcan, hts, hchannel, hflags, hlen, hdata]

theorem AgreeOn.packet_eq {s s' : State} (h : AgreeOn .receive s s') :
    s.regs.rxwLen = s'.regs.rxwLen ∧ readBuffer .rxw s = readBuffer .rxw s' := by
  obtain ⟨-, hread⟩ := h
  exact ⟨byteWord_injective (hread .rxwLen trivial rfl),
    readBuffer_eq_of_readReg fun i hi => hread (.element .rxw i) hi rfl⟩

/-! ### The results of a thread's instruction -/

/-- A unit's error, raised in two states that agree, leaves them agreeing. -/
theorem readReg_raise_congr {u : Raiser} {r : Reg} {s s' : State} (k : ErrorKind) (hr : r ≠ .fault)
    (h : readReg r s = readReg r s') : readReg r (raise k u s) = readReg r (raise k u s') := by
  by_cases hstatus : r = u.status
  · subst hstatus
    cases u with
    | unitT | unitE | unitD => rfl
    | hostPort => exact absurd rfl hr
  · rw [readReg_raise k s hstatus, readReg_raise k s' hstatus, h]

theorem readReg_writeBitTiming_congr {r : Reg} {s s' : State} (b : BitTiming) (h : readReg r s = readReg r s') :
    readReg r (writeBitTiming b s) = readReg r (writeBitTiming b s') := by
  by_cases hr : r.writer = .unitT
  · cases r with
    | tStatus | btPropSeg | btPhaseSeg1 | btPhaseSeg2 | btSjw | btBrp | btTq => rfl
    | element b i => cases b <;> cases hr
    | _ => cases hr
  · rw [readReg_writeBitTiming b s hr, readReg_writeBitTiming b s' hr, h]

theorem readReg_writeWireFrame_congr {r : Reg} {s s' : State} (w : List Byte) (hr : r.Assigned)
    (hs : s.mem.wf = true) (hs' : s'.mem.wf = true) (h : readReg r s = readReg r s') :
    readReg r (writeWireFrame w s) = readReg r (writeWireFrame w s') := by
  by_cases hw : r.writer = .unitE
  · cases r with
    | eStatus | txwLen => simp only [readReg, writeWireFrame_regs]
    | element b i =>
      cases b with
      | txw =>
        exact congrArg byteWord
          ((read_writeWireFrame_txw hs w hr).trans (read_writeWireFrame_txw hs' w hr).symm)
      | _ => cases hw
    | _ => cases hw
  · rw [readReg_writeWireFrame w s hr hw, readReg_writeWireFrame w s' hr hw, h]

theorem readReg_writeRxFrame_congr {r : Reg} {s s' : State} (tsOn : Bool) (f : Frame) (hr : r.Assigned)
    (hs : s.mem.wf = true) (hs' : s'.mem.wf = true) (h : readReg r s = readReg r s') :
    readReg r (writeRxFrame tsOn f s) = readReg r (writeRxFrame tsOn f s') := by
  by_cases hw : r.writer = .unitD
  · cases r with
    | dStatus | rxEchoId | rxCanId | rxChannel | rxFlags | rxLen | rxTs => simp only [readReg, writeRxFrame_regs]
    | element b i =>
      cases b with
      | rxData =>
        exact congrArg byteWord
          ((read_writeRxFrame_rxData hs tsOn f hr).trans (read_writeRxFrame_rxData hs' tsOn f hr).symm)
      | _ => cases hw
    | _ => cases hw
  · rw [readReg_writeRxFrame tsOn f s hr hw, readReg_writeRxFrame tsOn f s' hr hw, h]

theorem readReg_writeReg_congr {r r' : Reg} {s s' : State} (v : Word) (hr : r.Assigned) (hr' : r'.Assigned)
    (hrw : r'.access = .rw) (hs : s.mem.wf = true) (hs' : s'.mem.wf = true) (h : readReg r s = readReg r s') :
    readReg r (writeReg r' v s) = readReg r (writeReg r' v s') := by
  by_cases hnumber : r.number = r'.number
  · obtain rfl := number_injective hr hr' hnumber
    rw [readReg_writeReg_self v hrw hs, readReg_writeReg_self v hrw hs']
  · rw [readReg_writeReg_other v s hnumber, readReg_writeReg_other v s' hnumber, h]

/-- From states that agree on its thread an instruction leads to states that agree on it. -/
theorem readReg_exec_congr {i : Instr} {r : Reg} {a : ThreadSet} {s s' t t' : State} (hi : instrThread i = some a)
    (hagree : AgreeOn a s s') (hs : s.mem.wf = true) (hs' : s'.mem.wf = true) (h : exec i s = .next t)
    (h' : exec i s' = .next t') (hr : r.Assigned) (hthread : regThread r = some a) : readReg r t = readReg r t' := by
  have hread := hagree.2 r hr hthread
  have hfault : r ≠ .fault := by
    rintro rfl
    cases hthread
  cases i with
  | nop | clr | illegal => cases hi
  | tcalc =>
    cases hi
    have hoperands := hagree.timingOperands_eq
    obtain ⟨b, hb, rfl⟩ | ⟨hnone, rfl⟩ := execTcalc_cases h
    · obtain rfl := Host.Outcome.next.inj ((exec_tcalc_of_computeTiming (hoperands ▸ hb)).symm.trans h')
      exact readReg_writeBitTiming_congr b hread
    · obtain rfl := Host.Outcome.next.inj ((exec_tcalc_of_computeTiming_none (hoperands ▸ hnone)).symm.trans h')
      exact readReg_raise_congr _ hfault hread
  | fenc =>
    cases hi
    have hframe := hagree.txFrame_eq
    obtain ⟨w, hw, rfl⟩ | ⟨hnone, rfl⟩ := execFenc_cases h
    · rw [hagree.1, hframe] at hw
      obtain rfl := Host.Outcome.next.inj ((exec_fenc_of_encodeFrame hw).symm.trans h')
      exact readReg_writeWireFrame_congr w hr hs hs' hread
    · rw [hagree.1, hframe] at hnone
      obtain rfl := Host.Outcome.next.inj ((exec_fenc_of_encodeFrame_none hnone).symm.trans h')
      exact readReg_raise_congr _ hfault hread
  | fdec =>
    cases hi
    obtain ⟨hlen, hpacket⟩ := hagree.packet_eq
    obtain ⟨f, hf, rfl⟩ | ⟨hnone, rfl⟩ := execFdec_cases h
    · rw [hagree.1, hlen, hpacket] at hf
      obtain rfl := Host.Outcome.next.inj ((exec_fdec_of_decodeFrame hf).symm.trans h')
      rw [hagree.1]
      exact readReg_writeRxFrame_congr _ f hr hs hs' hread
    · rw [hagree.1, hlen, hpacket] at hnone
      obtain rfl := Host.Outcome.next.inj ((exec_fdec_of_decodeFrame_none hnone).symm.trans h')
      exact readReg_raise_congr _ hfault hread
  | wr n v =>
    obtain ⟨r', hr', hrw, rfl⟩ | ⟨hnot, rfl⟩ := execWr_cases h
    · obtain rfl := Host.Outcome.next.inj ((exec_wr_of_rw v s' hr' hrw).symm.trans h')
      exact readReg_writeReg_congr v hr (assigned_of_regAt hr') hrw hs hs' hread
    · obtain rfl := Host.Outcome.next.inj ((exec_wr_of_not_rw v s' hnot).symm.trans h')
      exact readReg_raise_congr _ hfault hread
  | rd n v =>
    obtain ⟨r', -, rfl⟩ | ⟨hnone, rfl⟩ := execRd_cases h
    · obtain ⟨_, -, rfl⟩ | ⟨hnone, rfl⟩ := execRd_cases h'
      · rw [readReg_returnValue, readReg_returnValue, hread]
      · simp only [instrThread, hnone, Option.bind_none, reduceCtorEq] at hi
    · simp only [instrThread, hnone, Option.bind_none, reduceCtorEq] at hi

/-- What a thread's instruction returns to the host. -/
def returnedBy (i : Instr) (s : State) : List Word :=
  match i with
  | .rd a _ => (regAt a).toList.map fun r => readReg r s
  | _ => []

theorem exec_returned_of_thread {i : Instr} {a : ThreadSet} {s t : State} (hi : instrThread i = some a)
    (h : exec i s = .next t) : t.returned = s.returned ++ returnedBy i s := by
  cases i with
  | rd n v =>
    obtain ⟨r, hr, rfl⟩ | ⟨hnone, rfl⟩ := execRd_cases h
    · rw [returnValue_returned, returnedBy, hr, Option.toList_some, List.map_singleton]
    · simp only [instrThread, hnone, Option.bind_none, reduceCtorEq] at hi
  | _ => exact ((exec_port h).2 fun _ _ => Instr.noConfusion).trans (List.append_nil _).symm

theorem returnedBy_congr {i : Instr} {a : ThreadSet} {s s' : State} (hi : instrThread i = some a)
    (hagree : AgreeOn a s s') : returnedBy i s = returnedBy i s' := by
  cases i with
  | rd n v =>
    simp only [instrThread, Option.bind_eq_some_iff] at hi
    obtain ⟨r, hr, hthread⟩ := hi
    rw [returnedBy, returnedBy, hr, Option.toList_some, List.map_singleton, List.map_singleton,
      hagree.2 r (assigned_of_regAt hr) hthread]
  | _ => rfl

/-! ### Both orders -/

/-- The registers of the first instruction's thread read alike after both orders. -/
theorem readReg_both_orders {i j : Instr} {a b : ThreadSet} {s ti tij tj tji : State} {r : Reg}
    (hi : instrThread i = some a) (hj : instrThread j = some b) (hne : a ≠ b) (hs : s.mem.wf = true)
    (hti : exec i s = .next ti) (htij : exec j ti = .next tij) (htj : exec j s = .next tj)
    (htji : exec i tj = .next tji) (hr : r.Assigned) (hthread : regThread r = some a) :
    readReg r tij = readReg r tji := by
  have hi_alone : readReg r ti = readReg r tij := (agreeOn_exec hj hne htij).2 r hr hthread
  have hi_after : readReg r ti = readReg r tji :=
    readReg_exec_congr hi (agreeOn_exec hj hne htj) hs (wf_exec htj (clr_of_instrThread hj) hs) hti htji hr hthread
  exact hi_alone.symm.trans hi_after

/-- Settles O49: each thread's registers are its own instruction's doing in both orders, FAULT records the same
refusals, and nothing else is written. -/
theorem threadsOfDifferentSetsCommute : Obligations.ThreadsOfDifferentSetsCommute := by
  intro i j a b s hs hi hj hne
  obtain ⟨ti, hti⟩ := exec_completes i s
  obtain ⟨tij, htij⟩ := exec_completes j ti
  obtain ⟨tj, htj⟩ := exec_completes j s
  obtain ⟨tji, htji⟩ := exec_completes i tj
  have hiclr := clr_of_instrThread hi
  have hjclr := clr_of_instrThread hj
  have hread (r : Reg) (hr : r.Assigned) : readReg r tij = readReg r tji := by
    by_cases ha : regThread r = some a
    · exact readReg_both_orders hi hj hne hs hti htij htj htji hr ha
    by_cases hb : regThread r = some b
    · exact (readReg_both_orders hj hi hne.symm hs htj htji hti htij hr hb).symm
    by_cases hfault : r = .fault
    · subst hfault
      simp only [readReg, fault_exec_of_thread hj htij, fault_exec_of_thread hi hti, fault_exec_of_thread hi htji,
        fault_exec_of_thread hj htj, recordAccess_comm i j]
    · rw [readReg_exec_of_thread hj htij hr hfault hb, readReg_exec_of_thread hi hti hr hfault ha,
        readReg_exec_of_thread hi htji hr hfault ha, readReg_exec_of_thread hj htj hr hfault hb]
  have hmem : tij.mem = tji.mem :=
    mem_eq_of_readReg (wf_exec htij hjclr (wf_exec hti hiclr hs)) (wf_exec htji hiclr (wf_exec htj hjclr hs)) hread
      fun n hn => by
        rw [exec_read_outside htij hjclr hn, exec_read_outside hti hiclr hn, exec_read_outside htji hiclr hn,
          exec_read_outside htj hjclr hn]
  refine ⟨ti, tij, tj, tji, returnedBy i s, returnedBy j s, hti, htij, htj, htji, regs_eq_of_readReg hread, hmem,
    exec_returned_of_thread hi hti, ?_, exec_returned_of_thread hj htj, ?_⟩
  · rw [exec_returned_of_thread hj htij, exec_returned_of_thread hi hti,
      returnedBy_congr hj (agreeOn_exec hi hne.symm hti)]
  · rw [exec_returned_of_thread hi htji, exec_returned_of_thread hj htj,
      returnedBy_congr hi (agreeOn_exec hj hne htj)]

end Sys2Proof.Machine
end
